-- ==== Sys2Proof/Word.lean ====
section
/-! DEFINITION. The value types of QOI-DEC: bytes, 32-bit words and pixels (00_scope.md R6, 10_state.md R20). -/

namespace Sys2Proof

/-- One byte of the stream, one channel of a pixel. -/
abbrev Byte := BitVec 8

/-- A 32-bit value: a header field, an error value. -/
abbrev Word := BitVec 32

/-- A pixel: "four independent 8-bit unsigned channels (r, g, b, a)" (10_state.md R20). -/
structure Pixel where
  r : Byte
  g : Byte
  b : Byte
  a : Byte
deriving DecidableEq, Repr

end Sys2Proof
end

