-- ==== Sys2Proof/Config.lean ====
section
/-! DEFINITION. The implementation parameters of QOI-DEC (00_scope.md R5): the fixed ones as numbers, the one OPEN
parameter the machine reads as a constant without a body. -/

namespace Sys2Proof

/-- `HDR_LEN`: the header's length in bytes (R5). -/
def Config.hdrLen : Nat := 14

/-- `MAGIC`: ASCII "qoif", big-endian (30_encoding.md R72; the byte values are log entry 16). -/
def Config.magic : Word := 0x716F6966#32

/-- `START_PIXEL` (R5). -/
def Config.startPixel : Pixel := ⟨0#8, 0#8, 0#8, 255#8⟩

/-- `CACHE_INIT`: `START_PIXEL` in every slot (R5; log entry 17). -/
def Config.cacheInit : Pixel := Config.startPixel

/-- `RUN_MAX`: the longest run of one RUN chunk (R5, R77). -/
def Config.runMax : Nat := 62

/-- `OUT_CAPACITY`, OPEN: the largest pixel total the output can hold (R5, 20_memory.md R63). It has no body: nothing
can be proved of its value (log entry 4). -/
opaque Config.outCapacity : Nat

end Sys2Proof
end

