-- ==== Sys2Proof/Syntax.lean ====
section
/-! DEFINITION. The syntax of the stream: one constructor of `Instr` for each row of spec/opcode_table.json, with its
fields as the encoding has them (30_encoding.md R71, R75), the six chunk kinds, and the lines of the assembler notation
(R82, R83). -/

namespace Sys2Proof

/-- What one step of the block runs: the header, or one chunk. Fields are the raw encoded fields, before any bias. -/
inductive Instr where
  /-- The 14-byte header, format H14 (R71). -/
  | header (magic width height : Word) (channels colorspace : Byte)
  /-- RGB, format C4 (R75). -/
  | rgb (r g b : Byte)
  /-- RGBA, format C5 (R75). -/
  | rgba (r g b a : Byte)
  /-- INDEX, format C1I (R75). -/
  | index (idx : BitVec 6)
  /-- DIFF, format C1D: three fields of two bits (R75). -/
  | diff (dr dg db : BitVec 2)
  /-- LUMA, format C2L (R75). -/
  | luma (dg : BitVec 6) (drdg dbdg : BitVec 4)
  /-- RUN, format C1I: `run` is the run length less one (R75, R76). -/
  | run (run : BitVec 6)
deriving DecidableEq, Repr

/-- The six chunk kinds a lead byte selects (R74). -/
inductive Kind where
  | rgb | rgba | index | diff | luma | run
deriving DecidableEq, Repr

/-- The two places an instruction stands in the stream: the header at offset 0, or a chunk (R70). -/
inductive Place where
  | header | chunk
deriving DecidableEq, Repr

/-- Where the instruction stands in the stream (R70). -/
def Instr.place : Instr → Place
  | .header .. => .header
  | .rgb .. => .chunk
  | .rgba .. => .chunk
  | .index .. => .chunk
  | .diff .. => .chunk
  | .luma .. => .chunk
  | .run .. => .chunk

/-- One line of the assembler notation, its operands integers as written (R82), and the directives (R83). -/
inductive AsmLine where
  | rgb (r g b : Int)
  | rgba (r g b a : Int)
  | index (i : Int)
  | diff (dr dg db : Int)
  | luma (dg drdg dbdg : Int)
  | run (n : Int)
  /-- `.header w, h, ch, cs` -/
  | header (w h ch cs : Int)
  /-- `.magic "xxxx"`: the four bytes replace the magic of the next `.header`. -/
  | magic (m : Word)
  /-- `.byte v, ...` -/
  | byte (vs : List Int)
deriving DecidableEq, Repr

end Sys2Proof
end

