-- ==== Sys2Proof/WellFormed.lean ====
section
/-! DEFINITION. Which instructions have an encoding. The field widths are in the types; the one check left is that of
RUN (30_encoding.md R77). A header with illegal field values is well formed: it has an encoding and the header step runs
it into its error (R80, R102). -/

namespace Sys2Proof

/-- "A RUN lead byte has `b0[5:0]` in 0..61 only" (R77); every other field value is legal (R79). -/
def Instr.wellFormed : Instr → Bool
  | .header .. => true
  | .rgb .. => true
  | .rgba .. => true
  | .index .. => true
  | .diff .. => true
  | .luma .. => true
  | .run n => decide (n.toNat < Config.runMax)

end Sys2Proof
end

