-- ==== Sys2Proof/Decode.lean ====
section
/-! DEFINITION. Decoding, total on any bytes and rejecting by name, then the encoder and the assembler notation, all from
30_encoding.md; and how the bit numbering of spec/opcode_table.json is laid out as bytes. -/

namespace Sys2Proof

/-! ### Decoding -/

/-- Why bytes do not decode. -/
inductive DecodeError where
  /-- Fewer than 14 bytes for a header (40_header.md R101). -/
  | shortHeader
  /-- No lead byte (41_chunk_step.md R121). -/
  | noLeadByte
  /-- The lead byte's chunk is longer than the bytes given (41_chunk_step.md R122). -/
  | truncated (lead : Byte)
deriving DecidableEq, Repr

/-- `Dispatch(b0)` (R74): the two full-byte tags first, then the top two bits. -/
def dispatch (b0 : Byte) : Kind :=
  if b0 = 0b11111110#8 then .rgb
  else if b0 = 0b11111111#8 then .rgba
  else if b0.extractLsb' 6 2 = 0b00#2 then .index
  else if b0.extractLsb' 6 2 = 0b01#2 then .diff
  else if b0.extractLsb' 6 2 = 0b10#2 then .luma
  else .run

/-- `ChunkLen(b0)`: a chunk's length in bytes from its lead byte (R73). -/
def chunkLen (b0 : Byte) : Nat :=
  if b0 = 0xFE#8 then 4
  else if b0 = 0xFF#8 then 5
  else if b0.extractLsb' 6 2 = 0b10#2 then 2
  else 1

/-- Four bytes as a big-endian word, the first in bits 31:24 (20_memory.md R51). -/
def be32 (b0 b1 b2 b3 : Byte) : Word := b0 ++ b1 ++ b2 ++ b3

/-- The header, format H14 (R71), and the bytes after it. -/
def decodeHeader : List Byte → Except DecodeError (Instr × List Byte)
  | m0 :: m1 :: m2 :: m3 :: w0 :: w1 :: w2 :: w3 :: h0 :: h1 :: h2 :: h3 :: ch :: cs :: rest =>
    .ok (.header (be32 m0 m1 m2 m3) (be32 w0 w1 w2 w3) (be32 h0 h1 h2 h3) ch cs, rest)
  | _ => .error .shortHeader

/-- One chunk (R75) and the bytes after it. -/
def decodeChunk : List Byte → Except DecodeError (Instr × List Byte)
  | [] => .error .noLeadByte
  | b0 :: rest =>
    match dispatch b0 with
    | .rgb =>
      match rest with
      | b1 :: b2 :: b3 :: rest' => .ok (.rgb b1 b2 b3, rest')
      | _ => .error (.truncated b0)
    | .rgba =>
      match rest with
      | b1 :: b2 :: b3 :: b4 :: rest' => .ok (.rgba b1 b2 b3 b4, rest')
      | _ => .error (.truncated b0)
    | .index => .ok (.index (b0.extractLsb' 0 6), rest)
    | .diff => .ok (.diff (b0.extractLsb' 4 2) (b0.extractLsb' 2 2) (b0.extractLsb' 0 2), rest)
    | .luma =>
      match rest with
      | b1 :: rest' => .ok (.luma (b0.extractLsb' 0 6) (b1.extractLsb' 4 4) (b1.extractLsb' 0 4), rest')
      | _ => .error (.truncated b0)
    | .run => .ok (.run (b0.extractLsb' 0 6), rest)

/-- What stands at a place of the stream, and the bytes after it (R70). -/
def decode : Place → List Byte → Except DecodeError (Instr × List Byte)
  | .header, bs => decodeHeader bs
  | .chunk, bs => decodeChunk bs

/-! ### Encoding -/

/-- A word's four bytes, most significant first (20_memory.md R51). -/
def be32Bytes (w : Word) : List Byte :=
  [w.extractLsb' 24 8, w.extractLsb' 16 8, w.extractLsb' 8 8, w.extractLsb' 0 8]

/-- The bytes of an instruction (R71, R75), those of a well-formed one being what `decode` reads. -/
def encode : Instr → List Byte
  | .header m w h ch cs => be32Bytes m ++ be32Bytes w ++ be32Bytes h ++ [ch, cs]
  | .rgb r g b => [0b11111110#8, r, g, b]
  | .rgba r g b a => [0b11111111#8, r, g, b, a]
  | .index idx => [0b00#2 ++ idx]
  | .diff dr dg db => [0b01#2 ++ dr ++ dg ++ db]
  | .luma dg drdg dbdg => [0b10#2 ++ dg, drdg ++ dbdg]
  | .run n => [0b11#2 ++ n]

/-- An instruction's length in bytes (R73 and, for the header, R71). -/
def Instr.length : Instr → Nat
  | .header .. => 14
  | .rgb .. => 4
  | .rgba .. => 5
  | .index .. => 1
  | .diff .. => 1
  | .luma .. => 2
  | .run .. => 1

/-! ### The assembler notation (R82, R83) -/

/-- An operand as its field: the operand less the least value it may have; none outside its range (R82). -/
def asmField (width : Nat) (lo hi x : Int) : Option (BitVec width) :=
  if lo ≤ x ∧ x ≤ hi then some (BitVec.ofInt width (x - lo)) else none

/-- The bytes of one line under the magic the next `.header` emits; `.magic` emits none (R82, R83). -/
def assembleLine (magic : Word) : AsmLine → Option (List Byte)
  | .rgb r g b => do
    return encode (.rgb (← asmField 8 0 255 r) (← asmField 8 0 255 g) (← asmField 8 0 255 b))
  | .rgba r g b a => do
    return encode (.rgba (← asmField 8 0 255 r) (← asmField 8 0 255 g) (← asmField 8 0 255 b) (← asmField 8 0 255 a))
  | .index i => do return encode (.index (← asmField 6 0 63 i))
  | .diff dr dg db => do
    return encode (.diff (← asmField 2 (-2) 1 dr) (← asmField 2 (-2) 1 dg) (← asmField 2 (-2) 1 db))
  | .luma dg drdg dbdg => do
    return encode (.luma (← asmField 6 (-32) 31 dg) (← asmField 4 (-8) 7 drdg) (← asmField 4 (-8) 7 dbdg))
  | .run n => do return encode (.run (← asmField 6 1 62 n))
  | .header w h ch cs => do
    return encode (.header magic (← asmField 32 0 4294967295 w) (← asmField 32 0 4294967295 h)
      (← asmField 8 0 255 ch) (← asmField 8 0 255 cs))
  | .magic _ => some []
  | .byte vs => vs.mapM (asmField 8 0 255)

/-- The magic in force after a line: `.magic` sets it, `.header` uses it up (R83). -/
def magicAfter (magic : Word) : AsmLine → Word
  | .rgb .. => magic
  | .rgba .. => magic
  | .index .. => magic
  | .diff .. => magic
  | .luma .. => magic
  | .run .. => magic
  | .header .. => Config.magic
  | .magic m => m
  | .byte .. => magic

/-- The bytes of lines, under the magic in force. -/
def assembleFrom (magic : Word) : List AsmLine → Option (List Byte)
  | [] => some []
  | l :: ls => do return (← assembleLine magic l) ++ (← assembleFrom (magicAfter magic l) ls)

/-- The bytes of a program (R82, R83); none if an operand is outside its range. -/
def assemble (ls : List AsmLine) : Option (List Byte) := assembleFrom Config.magic ls

/-! ### The opcode table's bit numbering -/

/-- Whether a table word stands for the HEADER row: it is longer than the longest chunk, or it is the row's 32 fixed bits
alone, the magic as `be32` reads it (log entry 11). -/
def tablePlace (nbits w : Nat) : Place :=
  if 40 < nbits ∨ (nbits = 32 ∧ w % 2 ^ 32 = Config.magic.toNat) then .header else .chunk

/-- A table word as bytes in stream order. A chunk's words are bytes, the first in bits 7:0. The HEADER row numbers the
bits of `be32(IN[0..3])`, so its words are big-endian: magic in bits 31:0, width in 63:32, height in 95:64, then the two
bytes (log entry 11). Bits from `nbits` up are zero. -/
def tableBytes (nbits w : Nat) : List Byte :=
  let v := w % 2 ^ nbits
  match tablePlace nbits w with
  | .header =>
    be32Bytes (BitVec.ofNat 32 v) ++ be32Bytes (BitVec.ofNat 32 (v / 2 ^ 32)) ++
      be32Bytes (BitVec.ofNat 32 (v / 2 ^ 64)) ++ [BitVec.ofNat 8 (v / 2 ^ 96), BitVec.ofNat 8 (v / 2 ^ 104)]
  | .chunk =>
    [BitVec.ofNat 8 v, BitVec.ofNat 8 (v / 2 ^ 8), BitVec.ofNat 8 (v / 2 ^ 16), BitVec.ofNat 8 (v / 2 ^ 24),
      BitVec.ofNat 8 (v / 2 ^ 32)]

/-- The instruction the decoder reads from a table word. -/
def decodeTableWord (nbits w : Nat) : Option Instr :=
  match decode (tablePlace nbits w) (tableBytes nbits w) with
  | .ok (i, _) => some i
  | .error _ => none

end Sys2Proof
end

