-- ==== Sys2Proof/Machine/State.lean ====
section
/-! DEFINITION. The state of QOI-DEC as plain data (10_state.md), the reasons a step can stop, and the state after reset
(10_state.md R33). -/

namespace Sys2Proof.Machine

/-- `PHASE` (10_state.md R21). -/
inductive Phase where
  | idle | header | decode | done | error
deriving DecidableEq, Repr

/-- The error kinds, `ERR_CODE` (60_exceptions.md R200). `pixelCountExceeded` is kept and never raised (R205). -/
inductive ErrKind where
  | noError | malformedHeader | invalidHeaderField | truncatedStream | pixelCountShort | pixelCountExceeded
deriving DecidableEq, Repr

/-- The host's two commands (10_state.md R32). -/
inductive HostCmd where
  /-- START with the input buffer, its length being `L` (40_header.md R100). -/
  | start (bytes : List Byte)
  /-- RESET (70_reset_and_hazards.md R230). -/
  | reset
deriving DecidableEq, Repr

/-- `IN` as cells: addresses strictly rising, no zero byte listed; an unlisted address reads as zero (log entry 8). -/
abbrev Memory := List Host.Cell

/-- Reasons the model stops. No state that satisfies `State.Inv` meets one (log entry 9). -/
inductive Fault where
  /-- A read of `IN` at or above `L`, an address that does not exist (20_memory.md R50, R55). Raised by fetching in a
  state with `POS > L`, which no run reaches. Safe: the model stops. -/
  | inputOutOfRange
  /-- Bytes of the length a chunk or header has that do not decode. Raised by fetching; there are none. Safe: the model
  stops. -/
  | undecodedBytes
deriving DecidableEq, Repr

/-- Reasons the model gives no meaning. -/
inductive Refusal where
  /-- An instruction without a meaning yet. Raised by no arm. Safe. -/
  | notModelled (mnemonic : String)
  /-- The header step of a decode with `N > OUT_CAPACITY`, outside the spec (20_memory.md R63). Raised by the header's
  commit. Safe: "a model refuses it and proves nothing about it". -/
  | outCapacityExceeded
  /-- START in HEADER or DECODE, a move the host does not have (70_reset_and_hazards.md R232). Raised by taking the
  command. Safe. -/
  | startWhileBusy
deriving DecidableEq, Repr

/-- The architectural state (10_state.md section 2) and two fields of the model's own, the last two. -/
structure State where
  /-- `PHASE` (R21) -/
  phase : Phase
  /-- `IN` (R22) -/
  input : Memory
  /-- `L` (R22) -/
  len : Nat
  /-- `HDR_MAGIC` (R23) -/
  hdrMagic : Word
  /-- `HDR_WIDTH` (R23) -/
  hdrWidth : Word
  /-- `HDR_HEIGHT` (R23) -/
  hdrHeight : Word
  /-- `HDR_CHANNELS` (R23) -/
  hdrChannels : Byte
  /-- `HDR_COLORSPACE` (R23) -/
  hdrColorspace : Byte
  /-- `N` (R30) -/
  n : Nat
  /-- `POS` (R24) -/
  pos : Nat
  /-- `PREV` (R25) -/
  prev : Pixel
  /-- `cache` (R26) -/
  cache : Vector Pixel 64
  /-- `OUT` (R27); `COUNT` is its length -/
  out : List Pixel
  /-- `CLIPPED` (R28) -/
  clipped : Bool
  /-- `ERR_CODE` (R29) -/
  errCode : ErrKind
  /-- `ERR_FIELD` (R29) -/
  errField : BitVec 2
  /-- `ERR_VALUE` (R29) -/
  errValue : Word
  /-- The platform's `OUT_CAPACITY` (00_scope.md R5): an argument of the model that no step changes (log entry 4). -/
  outCapacity : Nat
  /-- The command the host has issued and the block has not taken yet (log entry 2). -/
  hostCmd : Option HostCmd
deriving DecidableEq, Repr

/-- After RESET (R33). `IN` and `L`, which R33 leaves unspecified, are empty and 0 (log entry 6). -/
def State.reset : State where
  phase := .idle
  input := []
  len := 0
  hdrMagic := 0#32
  hdrWidth := 0#32
  hdrHeight := 0#32
  hdrChannels := 0#8
  hdrColorspace := 0#8
  n := 0
  pos := 0
  prev := Config.startPixel
  cache := Vector.replicate 64 Config.cacheInit
  out := []
  clipped := false
  errCode := .noError
  errField := 0#2
  errValue := 0#32
  outCapacity := Config.outCapacity
  hostCmd := none

end Sys2Proof.Machine
end

