-- ==== Sys2Proof/Machine/Operands.lean ====
section
/-! DEFINITION. Operands: how each encoded field becomes an operand (30_encoding.md R76), 8-bit wrapping arithmetic
(00_scope.md R6, 44_delta.md R160) and the cache hash (41_chunk_step.md R123). -/

namespace Sys2Proof.Machine

/-- `wrap8(x) = x mod 256`, also for negative `x` (R6). -/
def wrap8 (x : Int) : Byte := BitVec.ofInt 8 x

/-- One lane of DIFF and LUMA: `wrap8(PREV.x + d)` (R160). -/
def addLane (c : Byte) (d : Int) : Byte := wrap8 (c.toNat + d)

/-- A DIFF delta: the 2-bit field, unsigned, less 2 (R76). -/
def diffDelta (f : BitVec 2) : Int := f.toNat - 2

/-- LUMA's green delta: the 6-bit field, unsigned, less 32 (R76). -/
def lumaGreen (f : BitVec 6) : Int := f.toNat - 32

/-- LUMA's red and blue deltas: `dg - 8` plus the 4-bit field, unsigned (R76). -/
def lumaSide (dg : BitVec 6) (f : BitVec 4) : Int := lumaGreen dg - 8 + f.toNat

/-- A RUN's length: the 6-bit field, unsigned, plus 1 (R76). -/
def runLength (f : BitVec 6) : Nat := f.toNat + 1

/-- `hash(p)`: the cache slot of a pixel (R123). -/
def pixelHash (p : Pixel) : BitVec 6 :=
  BitVec.ofNat 6 ((3 * p.r.toNat + 5 * p.g.toNat + 7 * p.b.toNat + 11 * p.a.toNat) % 64)

/-- A pixel as one word, `r[31:24] g[23:16] b[15:8] a[7:0]` (10_state.md R20). -/
def packPixel (p : Pixel) : Word := p.r ++ p.g ++ p.b ++ p.a

end Sys2Proof.Machine
end

