-- ==== Sys2Proof/Machine/Ops.lean ====
section
/-! DEFINITION. The named operations over memory and registers, and taking an exception: error entry
(60_exceptions.md R206). There is no return from one (R207): ERROR is left by START or RESET only. -/

namespace Sys2Proof.Machine

/-! ### The memory of `IN` -/

/-- The byte at an address; an unlisted address reads as zero (log entry 8). -/
def Memory.read : Memory → Nat → Byte
  | [], _ => 0#8
  | (c, d) :: m, a => if a = c then d else Memory.read m a

/-- A cell in front of a memory, unless it holds what an unlisted address reads as. -/
def Memory.put (a : Nat) (b : Byte) (m : Memory) : Memory := if b = 0#8 then m else (a, b) :: m

/-- Write one byte, keeping the canonical form. -/
def Memory.write : Memory → Nat → Byte → Memory
  | [], a, b => Memory.put a b []
  | (c, d) :: m, a, b =>
    if a < c then Memory.put a b ((c, d) :: m)
    else if a = c then Memory.put a b m
    else (c, d) :: Memory.write m a b

/-- Write bytes at consecutive addresses. -/
def Memory.writeBytes : Memory → Nat → List Byte → Memory
  | m, _, [] => m
  | m, a, b :: bs => Memory.writeBytes (Memory.write m a b) (a + 1) bs

/-- A buffer that holds these bytes from address 0. -/
def Memory.ofBytes (bs : List Byte) : Memory := Memory.writeBytes [] 0 bs

/-- The canonical form: addresses strictly rising, no zero byte listed. -/
abbrev Memory.wf (m : Memory) : Prop := m.Pairwise (fun x y => x.1 < y.1) ∧ ∀ x ∈ m, x.2 ≠ 0#8

/-- `IN[i]`, none at or above `L` (20_memory.md R50, R55). -/
def State.inByte (s : State) (i : Nat) : Option Byte := if i < s.len then some (Memory.read s.input i) else none

/-- The bytes at `n` consecutive addresses of `IN`, whatever `L` is. -/
def Memory.readBytes (m : Memory) (a : Nat) : Nat → List Byte
  | 0 => []
  | n + 1 => Memory.read m a :: Memory.readBytes m (a + 1) n

/-- `MemRead(addr, n)`, none unless `addr + n <= L` (00_scope.md R7). -/
def State.memRead (s : State) (a n : Nat) : Option (List Byte) :=
  if a + n ≤ s.len then some (Memory.readBytes s.input a n) else none

/-- The bytes of `IN` from `POS` to the end. -/
def State.remaining (s : State) : List Byte := Memory.readBytes s.input s.pos (s.len - s.pos)

/-! ### The seen cache and the output -/

/-- `cache[i]` (10_state.md R26). -/
def State.cacheRead (s : State) (i : BitVec 6) : Pixel := s.cache[i.toNat]'i.isLt

/-- `cache[i] <- p`. -/
def State.cacheWrite (s : State) (i : BitVec 6) (p : Pixel) : State :=
  { s with cache := s.cache.set i.toNat p i.isLt }

/-- `COUNT = len(OUT)` (10_state.md R27). -/
def State.count (s : State) : Nat := s.out.length

/-- `N - COUNT`, the pixels still needed (41_chunk_step.md R124). -/
def State.needed (s : State) : Nat := s.n - s.count

/-- `MemWrite(OUT, COUNT, p)`, `m` times (20_memory.md R57). -/
def State.append (s : State) (m : Nat) (p : Pixel) : State := { s with out := s.out ++ List.replicate m p }

/-- `PREV <- p` (10_state.md R25). -/
def State.setPrev (s : State) (p : Pixel) : State := { s with prev := p }

/-- `POS <- POS + n` (10_state.md R24). -/
def State.advance (s : State) (n : Nat) : State := { s with pos := s.pos + n }

/-! ### Codes and error entry -/

/-- `PHASE`'s encoding (10_state.md R21). -/
def Phase.code : Phase → BitVec 3
  | .idle => 0#3
  | .header => 1#3
  | .decode => 2#3
  | .done => 3#3
  | .error => 4#3

/-- `ERR_CODE`'s encoding (60_exceptions.md R200). -/
def ErrKind.code : ErrKind → BitVec 3
  | .noError => 0#3
  | .malformedHeader => 1#3
  | .invalidHeaderField => 2#3
  | .truncatedStream => 3#3
  | .pixelCountShort => 4#3
  | .pixelCountExceeded => 5#3

/-- `raise E(f, v)`: error entry, which writes these four and nothing else (R206). -/
def State.raise (s : State) (e : ErrKind) (f : BitVec 2) (v : Word) : State :=
  { s with errCode := e, errField := f, errValue := v, phase := .error }

/-- A function applied to the next state of an outcome. -/
def onNext (f : State → State) : Host.Outcome State Fault Refusal → Host.Outcome State Fault Refusal
  | .next s => .next (f s)
  | .fault r => .fault r
  | .refused r => .refused r

end Sys2Proof.Machine
end

