-- ==== Sys2Proof/Machine/Flags.lean ====
section
/-! DEFINITION. The block's one flag, `CLIPPED` (10_state.md R28). -/

namespace Sys2Proof.Machine

/-- How many pixels a chunk of repeat count `k` appends: `min(k, N - COUNT)` (41_chunk_step.md R124). -/
def State.kept (s : State) (k : Nat) : Nat := min k s.needed

/-- `CLIPPED` after a chunk of repeat count `k`: set if pixels were discarded, else as it was (R28, R124). -/
def State.clippedAfter (s : State) (k : Nat) : Bool := s.clipped || decide (s.kept k < k)

/-- `CLIPPED <- 1` if the chunk is clipped (R124). -/
def State.markClipped (s : State) (k : Nat) : State := { s with clipped := s.clippedAfter k }

end Sys2Proof.Machine
end

