-- ==== Sys2Proof/Machine/Chunk.lean ====
section
/-! DEFINITION. What every chunk kind shares after its pixel is produced (41_chunk_step.md): commit (R124), the cursor
(R120) and termination (R125). -/

namespace Sys2Proof.Machine

/-- `Commit(p, k)`: `CLIPPED`, the pixels kept, `PREV`, the cache slot (R124). -/
def State.commit (s : State) (p : Pixel) (k : Nat) : State :=
  (((s.markClipped k).append (s.kept k) p).setPrev p).cacheWrite (pixelHash p) p

/-- `if COUNT = N: PHASE <- DONE` (R125). -/
def State.terminate (s : State) : State := if s.count = s.n then { s with phase := .done } else s

/-- The end of a chunk step: commit `k` times `p`, move the cursor past the chunk's `n` bytes, test for the end (R120). -/
def State.completeChunk (s : State) (p : Pixel) (k n : Nat) : State := ((s.commit p k).advance n).terminate

end Sys2Proof.Machine
end

