-- ==== Sys2Proof/Machine/CacheIndex.lean ====
section
/-! DEFINITION. The cache reference chunk INDEX (43_index.md). -/

namespace Sys2Proof.Machine

/-- INDEX: the pixel of the slot (R150). -/
def execIndex (idx : BitVec 6) (s : State) : Host.Outcome State Fault Refusal :=
  .next (s.completeChunk (s.cacheRead idx) 1 1)

end Sys2Proof.Machine
end

