-- ==== Sys2Proof/Machine/Delta.lean ====
section
/-! DEFINITION. The delta chunks DIFF and LUMA (44_delta.md). -/

namespace Sys2Proof.Machine

/-- The lane law: a delta on each of r, g, b, alpha copied (R160). -/
def addDeltas (p : Pixel) (dr dg db : Int) : Pixel := ⟨addLane p.r dr, addLane p.g dg, addLane p.b db, p.a⟩

/-- DIFF (R161). -/
def execDiff (dr dg db : BitVec 2) (s : State) : Host.Outcome State Fault Refusal :=
  .next (s.completeChunk (addDeltas s.prev (diffDelta dr) (diffDelta dg) (diffDelta db)) 1 1)

/-- LUMA (R162). -/
def execLuma (dg : BitVec 6) (drdg dbdg : BitVec 4) (s : State) : Host.Outcome State Fault Refusal :=
  .next (s.completeChunk (addDeltas s.prev (lumaSide dg drdg) (lumaGreen dg) (lumaSide dg dbdg)) 1 2)

end Sys2Proof.Machine
end

