-- ==== Sys2Proof/Machine/Header.lean ====
section
/-! DEFINITION. The header step after its length check (40_header.md R101 to R104). -/

namespace Sys2Proof.Machine

/-- The header registers take the header's fields (R101). -/
def State.writeHeader (s : State) (m w h : Word) (ch cs : Byte) : State :=
  { s with hdrMagic := m, hdrWidth := w, hdrHeight := h, hdrChannels := ch, hdrColorspace := cs }

/-- `Validate`: the first failing check's field and value, none if all pass (R102). -/
def invalidField (m : Word) (ch cs : Byte) : Option (BitVec 2 × Word) :=
  if m ≠ Config.magic then some (0#2, m)
  else if ch ≠ 3#8 ∧ ch ≠ 4#8 then some (1#2, ch.setWidth 32)
  else if cs ≠ 0#8 ∧ cs ≠ 1#8 then some (2#2, cs.setWidth 32)
  else none

/-- `N`, `POS` and `PHASE` as the commit sets them (R103). -/
def State.openStream (s : State) (total : Nat) : State :=
  { s with n := total, pos := Config.hdrLen, phase := if total = 0 then .done else .decode }

/-- The commit for a pixel total; a total above `OUT_CAPACITY` is refused (R103, R104; 20_memory.md R63). -/
def commitTotal (s : State) (total : Nat) : Host.Outcome State Fault Refusal :=
  if total = 0 then .next (s.openStream 0)
  else if s.outCapacity < total then .refused .outCapacityExceeded
  else .next (s.openStream total)

/-- `Commit`: `N` is the exact product of the registers, without wrap (R103, 10_state.md R30). -/
def commitHeader (s : State) : Host.Outcome State Fault Refusal :=
  commitTotal s (s.hdrWidth.toNat * s.hdrHeight.toNat)

/-- HEADER (R101 to R104). -/
def execHeader (m w h : Word) (ch cs : Byte) (s : State) : Host.Outcome State Fault Refusal :=
  match invalidField m ch cs with
  | some (f, v) => .next ((s.writeHeader m w h ch cs).raise .invalidHeaderField f v)
  | none => commitHeader (s.writeHeader m w h ch cs)

end Sys2Proof.Machine
end

