-- ==== Sys2Proof/Machine/Literal.lean ====
section
/-! DEFINITION. The literal chunks RGB and RGBA (42_literal.md). -/

namespace Sys2Proof.Machine

/-- `Produce(RGB)`: alpha from `PREV` (R140). -/
def produceRgb (s : State) (r g b : Byte) : Pixel := ⟨r, g, b, s.prev.a⟩

/-- RGB (R140). -/
def execRgb (r g b : Byte) (s : State) : Host.Outcome State Fault Refusal :=
  .next (s.completeChunk (produceRgb s r g b) 1 4)

/-- RGBA (R141). -/
def execRgba (r g b a : Byte) (s : State) : Host.Outcome State Fault Refusal :=
  .next (s.completeChunk ⟨r, g, b, a⟩ 1 5)

end Sys2Proof.Machine
end

