-- ==== Sys2Proof/Machine/Run.lean ====
section
/-! DEFINITION. The run chunk RUN (45_run.md). -/

namespace Sys2Proof.Machine

/-- RUN: `PREV`, repeated (R180). -/
def execRun (n : BitVec 6) (s : State) : Host.Outcome State Fault Refusal :=
  .next (s.completeChunk s.prev (runLength n) 1)

end Sys2Proof.Machine
end

