-- ==== Sys2Proof/Machine/Fetch.lean ====
section
/-! DEFINITION. Fetching: the input checks of the header step (40_header.md R101) and of a chunk step (41_chunk_step.md
R120 to R122), and decoding what was read. -/

namespace Sys2Proof.Machine

/-- What fetching gives: an instruction to run, an error to raise, or a stop. -/
inductive Fetched where
  | runs (i : Instr)
  | raises (e : ErrKind) (f : BitVec 2) (v : Word)
  | stops (r : Fault)
deriving DecidableEq, Repr

/-- The instruction that bytes read from `IN` hold. -/
def fetchedFrom (p : Place) (bytes : Option (List Byte)) : Fetched :=
  match bytes with
  | none => .stops .inputOutOfRange
  | some bs =>
    match decode p bs with
    | .ok (i, _) => .runs i
    | .error _ => .stops .undecodedBytes

/-- The header step: `MalformedHeader` if `L < 14`, else the 14 bytes (R101). -/
def fetchHeader (s : State) : Fetched :=
  if s.len < Config.hdrLen then .raises .malformedHeader 0#2 0#32
  else fetchedFrom .header (s.memRead 0 Config.hdrLen)

/-- A chunk step once its lead byte is read: `TruncatedStream` if the chunk is longer than what remains, else its bytes
(R122). -/
def fetchFrom (s : State) (b0 : Byte) : Fetched :=
  if s.len < s.pos + chunkLen b0 then .raises .truncatedStream 0#2 (b0.setWidth 32)
  else fetchedFrom .chunk (s.memRead s.pos (chunkLen b0))

/-- A chunk step: `PixelCountShort` at the end of the input (R121), else the lead byte. -/
def fetchChunk (s : State) : Fetched :=
  if s.pos = s.len then .raises .pixelCountShort 0#2 0#32
  else
    match s.inByte s.pos with
    | none => .stops .inputOutOfRange
    | some b0 => fetchFrom s b0

end Sys2Proof.Machine
end

