-- ==== Sys2Proof/Machine/HostPort.lean ====
section
/-! DEFINITION. The host's side: START (40_header.md R100), RESET (70_reset_and_hazards.md R230), register reads
(10_state.md R32), the handover of the output (20_memory.md R59) and the result of a run (70_reset_and_hazards.md R235). -/

namespace Sys2Proof.Machine

/-- START is accepted in IDLE, DONE and ERROR (R100). -/
def State.acceptsStart (s : State) : Bool :=
  match s.phase with
  | .idle => true
  | .header => false
  | .decode => false
  | .done => true
  | .error => true

/-- START: every element rewritten (R100). -/
def State.start (s : State) (bytes : List Byte) : State where
  phase := .header
  input := Memory.ofBytes bytes
  len := bytes.length
  hdrMagic := 0#32
  hdrWidth := 0#32
  hdrHeight := 0#32
  hdrChannels := 0#8
  hdrColorspace := 0#8
  n := 0
  pos := 0
  prev := Config.startPixel
  cache := Vector.replicate 64 Config.cacheInit
  out := []
  clipped := false
  errCode := .noError
  errField := 0#2
  errValue := 0#32
  outCapacity := s.outCapacity
  hostCmd := none

/-- RESET: every element at its reset value (R230, R33); `IN` and `L`, which only START writes, stay (log entry 7). -/
def State.hostReset (s : State) : State :=
  { State.reset with input := s.input, len := s.len, outCapacity := s.outCapacity }

/-- The host issues a command between two steps; the next step takes it (log entry 2). -/
def State.issue (s : State) (c : HostCmd) : State := { s with hostCmd := some c }

/-- Taking a command. START in HEADER or DECODE is no move of the host's and is refused (R232). -/
def execHostCmd (c : HostCmd) (s : State) : Host.Outcome State Fault Refusal :=
  match c with
  | .reset => .next s.hostReset
  | .start bytes => if s.acceptsStart then .next (s.start bytes) else .refused .startWhileBusy

/-- The elements the host reads (R32); `PREV` and `cache` are not among them. -/
inductive HostReg where
  | phase | hdrMagic | hdrWidth | hdrHeight | hdrChannels | hdrColorspace | n | pos | count | clipped
  | errCode | errField | errValue
deriving DecidableEq, Repr

/-- A read of an element as a number; it changes nothing (R32). Where it stands on a bus is open (log entry 19). -/
def State.hostRead (s : State) : HostReg → Nat
  | .phase => s.phase.code.toNat
  | .hdrMagic => s.hdrMagic.toNat
  | .hdrWidth => s.hdrWidth.toNat
  | .hdrHeight => s.hdrHeight.toNat
  | .hdrChannels => s.hdrChannels.toNat
  | .hdrColorspace => s.hdrColorspace.toNat
  | .n => s.n
  | .pos => s.pos
  | .count => s.count
  | .clipped => s.clipped.toNat
  | .errCode => s.errCode.code.toNat
  | .errField => s.errField.toNat
  | .errValue => s.errValue.toNat

/-- What the sink receives: width, height and the pixels, at DONE only (R59, R231). -/
def State.handover (s : State) : Option (Word × Word × List Pixel) :=
  match s.phase with
  | .idle => none
  | .header => none
  | .decode => none
  | .done => some (s.hdrWidth, s.hdrHeight, s.out)
  | .error => none

/-- The pixel handed over at a column and a row: index `row * HDR_WIDTH + column` (20_memory.md R57). -/
def State.pixelAt (s : State) (col row : Nat) : Option Pixel :=
  match s.handover with
  | none => none
  | some (w, h, px) => if col < w.toNat ∧ row < h.toNat then px[row * w.toNat + col]? else none

/-- The result of a run (R235). -/
inductive Result where
  | image (pixels : List Pixel) (width height : Word) (channels colorspace : Byte) (pos : Nat) (clipped : Bool)
  | failed (code : ErrKind) (field : BitVec 2) (value : Word) (pos count : Nat)
deriving DecidableEq, Repr

/-- The result of a run that has ended, none before its end (R235). -/
def State.result (s : State) : Option Result :=
  match s.phase with
  | .idle => none
  | .header => none
  | .decode => none
  | .done => some (.image s.out s.hdrWidth s.hdrHeight s.hdrChannels s.hdrColorspace s.pos s.clipped)
  | .error => some (.failed s.errCode s.errField s.errValue s.pos s.count)

end Sys2Proof.Machine
end

