-- ==== Sys2Proof/Machine/Step.lean ====
section
/-! DEFINITION. One step of the block (00_scope.md R2, 10_state.md R21): a host command if one waits, else the header step
or a chunk step; in IDLE, DONE and ERROR the block waits. -/

namespace Sys2Proof.Machine

/-- Run what was fetched. -/
def runFetched (f : Fetched) (s : State) : Host.Outcome State Fault Refusal :=
  match f with
  | .runs i => exec i s
  | .raises e fld v => .next (s.raise e fld v)
  | .stops r => .fault r

/-- What the block does in each phase when no command waits (R21); waiting changes nothing (log entry 1). -/
def stepPhase (s : State) : Host.Outcome State Fault Refusal :=
  match s.phase with
  | .idle => .next s
  | .header => runFetched (fetchHeader s) s
  | .decode => runFetched (fetchChunk s) s
  | .done => .next s
  | .error => .next s

/-- One step. A command is taken first: RESET wins over any step (60_exceptions.md R209). -/
def step (s : State) : Host.Outcome State Fault Refusal :=
  match s.hostCmd with
  | some c => execHostCmd c s
  | none => stepPhase s

/-- A table word placed where the next step fetches (log entry 12): the header at offset 0 in phase HEADER; a chunk at
`POS`, at least 14, in phase DECODE with pixels still needed. -/
def State.withFetchWord (s : State) (nbits w : Nat) : State :=
  match tablePlace nbits w with
  | .header =>
    { s with
      phase := .header
      input := Memory.writeBytes s.input 0 (tableBytes nbits w)
      len := max s.len Config.hdrLen
      hostCmd := none }
  | .chunk =>
    { s with
      phase := .decode
      input := Memory.writeBytes s.input (max Config.hdrLen s.pos) (tableBytes nbits w)
      len := max s.len (max Config.hdrLen s.pos + 5)
      pos := max Config.hdrLen s.pos
      n := if s.count < s.n then s.n else s.count + Config.runMax
      hostCmd := none }

end Sys2Proof.Machine
end

