-- ==== Sys2Proof/Safety.lean ====
section
/-! DEFINITION. What counts as a good state and a good run of QOI-DEC, and the relations between a state and the next one,
in the terms the statements use. -/

namespace Sys2Proof.Machine

/-- Every element but `PHASE`, `IN` and `L` at the value it has after RESET and after START (10_state.md R33). -/
structure State.Fresh (s : State) : Prop where
  hdrMagic : s.hdrMagic = 0#32
  hdrWidth : s.hdrWidth = 0#32
  hdrHeight : s.hdrHeight = 0#32
  hdrChannels : s.hdrChannels = 0#8
  hdrColorspace : s.hdrColorspace = 0#8
  n : s.n = 0
  pos : s.pos = 0
  prev : s.prev = ⟨0#8, 0#8, 0#8, 255#8⟩
  cache : ∀ i : BitVec 6, s.cacheRead i = ⟨0#8, 0#8, 0#8, 255#8⟩
  out : s.out = []
  clipped : s.clipped = false
  errCode : s.errCode = .noError
  errField : s.errField = 0#2
  errValue : s.errValue = 0#32

/-- The header registers hold a header that passed validation (40_header.md R102). -/
structure State.HeaderValid (s : State) : Prop where
  magic : s.hdrMagic = 0x716F6966#32
  channels : s.hdrChannels = 3#8 ∨ s.hdrChannels = 4#8
  colorspace : s.hdrColorspace = 0#8 ∨ s.hdrColorspace = 1#8

/-- `N` is the exact product and `POS` is past the header: what a successful header step leaves (R103, R30). -/
structure State.StreamOpen (s : State) : Prop where
  header : s.HeaderValid
  total : s.n = s.hdrWidth.toNat * s.hdrHeight.toNat
  pos : 14 ≤ s.pos

/-- The error registers record the error that the rest of the state shows (60_exceptions.md R201 to R204). -/
def State.RecordsError (s : State) : Prop :=
  match s.errCode with
  | .noError => s.errField = 0#2 ∧ s.errValue = 0#32
  | .malformedHeader =>
    s.len < 14 ∧ s.errField = 0#2 ∧ s.errValue = 0#32 ∧ s.pos = 0 ∧ s.out = [] ∧ s.hdrMagic = 0#32 ∧
      s.hdrWidth = 0#32 ∧ s.hdrHeight = 0#32 ∧ s.hdrChannels = 0#8 ∧ s.hdrColorspace = 0#8
  | .invalidHeaderField =>
    s.pos = 0 ∧ s.out = [] ∧
      ((s.errField = 0#2 ∧ s.errValue = s.hdrMagic ∧ s.hdrMagic ≠ 0x716F6966#32) ∨
        (s.errField = 1#2 ∧ s.errValue = s.hdrChannels.setWidth 32 ∧ s.hdrMagic = 0x716F6966#32 ∧
          s.hdrChannels ≠ 3#8 ∧ s.hdrChannels ≠ 4#8) ∨
        (s.errField = 2#2 ∧ s.errValue = s.hdrColorspace.setWidth 32 ∧ s.hdrMagic = 0x716F6966#32 ∧
          (s.hdrChannels = 3#8 ∨ s.hdrChannels = 4#8) ∧ s.hdrColorspace ≠ 0#8 ∧ s.hdrColorspace ≠ 1#8))
  | .truncatedStream =>
    s.StreamOpen ∧ s.count < s.n ∧ s.errField = 0#2 ∧
      ∃ b0, s.inByte s.pos = some b0 ∧ s.errValue = b0.setWidth 32 ∧ s.len < s.pos + chunkLen b0
  | .pixelCountShort => s.StreamOpen ∧ s.count < s.n ∧ s.errField = 0#2 ∧ s.errValue = 0#32 ∧ s.pos = s.len
  | .pixelCountExceeded => False

/-- The invariant of the machine: the items of 10_state.md R34 and what they need. -/
structure State.Inv (s : State) : Prop where
  /-- `IN` keeps its canonical form and lists nothing at or above `L`. -/
  memoryWf : Memory.wf s.input
  memoryBelow : ∀ x ∈ s.input, x.1 < s.len
  totalFits : s.n ≤ s.outCapacity
  countLe : s.count ≤ s.n
  posLe : s.pos ≤ s.len
  unstarted : s.phase = .idle ∨ s.phase = .header → s.Fresh
  streamOpen : s.phase = .decode ∨ s.phase = .done → s.StreamOpen
  decodeCount : s.phase = .decode → s.count < s.n
  doneCount : s.phase = .done → s.count = s.n
  cachePrev : s.cacheRead (pixelHash s.prev) = s.prev
  cacheSlots : ∀ i, s.cacheRead i = Config.startPixel ∨ pixelHash (s.cacheRead i) = i
  errorPhase : s.phase = .error ↔ s.errCode ≠ .noError
  errorRecord : s.RecordsError
  clippedEnds : s.clipped = true → s.phase = .done

/-- The states a run can reach: RESET with whatever output capacity the platform has, then steps, the host issuing
commands between them (70_reset_and_hazards.md R230, R231). -/
inductive Reachable : State → Prop where
  | reset (capacity : Nat) : Reachable { State.reset with outCapacity := capacity }
  | command {s : State} (c : HostCmd) : Reachable s → Reachable (s.issue c)
  | step {s t : State} : Reachable s → Machine.step s = .next t → Reachable t

/-- A decode has ended (70_reset_and_hazards.md R235). -/
def State.Ended (s : State) : Prop := s.phase = .done ∨ s.phase = .error

/-- A chunk step is the next step: phase DECODE, no command waiting (41_chunk_step.md R120). -/
structure State.AtChunk (s : State) : Prop where
  phase : s.phase = .decode
  noCmd : s.hostCmd = none

/-- The header step is the next step: phase HEADER, no command waiting (40_header.md R101). -/
structure State.AtHeader (s : State) : Prop where
  phase : s.phase = .header
  noCmd : s.hostCmd = none

/-- What no chunk writes: `IN` (every byte and `L`), the header registers, `N`, the error registers, and the model's own
fields. -/
structure ChunkFrame (s t : State) : Prop where
  bytes : ∀ a, t.inByte a = s.inByte a
  input : t.input = s.input
  len : t.len = s.len
  hdrMagic : t.hdrMagic = s.hdrMagic
  hdrWidth : t.hdrWidth = s.hdrWidth
  hdrHeight : t.hdrHeight = s.hdrHeight
  hdrChannels : t.hdrChannels = s.hdrChannels
  hdrColorspace : t.hdrColorspace = s.hdrColorspace
  n : t.n = s.n
  errCode : t.errCode = s.errCode
  errField : t.errField = s.errField
  errValue : t.errValue = s.errValue
  outCapacity : t.outCapacity = s.outCapacity
  hostCmd : t.hostCmd = s.hostCmd

/-- The effect of a chunk of `n` bytes that appends `m` times the pixel `p` (41_chunk_step.md R120, R124, R125), with its
frame; `CLIPPED` is said beside it. -/
structure ChunkEffect (s t : State) (p : Pixel) (m n : Nat) : Prop where
  out : t.out = s.out ++ List.replicate m p
  prev : t.prev = p
  /-- The slot of the pixel's hash (R123) takes it; every other slot is unchanged. -/
  cache : ∀ i : BitVec 6, t.cacheRead i =
    if i.toNat = (3 * p.r.toNat + 5 * p.g.toNat + 7 * p.b.toNat + 11 * p.a.toNat) % 64 then p else s.cacheRead i
  pos : t.pos = s.pos + n
  phase : t.phase = if s.out.length + m = s.n then .done else s.phase
  frame : ChunkFrame s t

end Sys2Proof.Machine
end

