-- ==== Sys2Proof/Certificates/Slice0/Obligations.lean ====
section
/-! DEFINITION. The statements for the provers, from the numbered rules of spec/, file by file. -/

open Sys2Proof Sys2Proof.Machine

/-! ### Pixels, phases and codes (10_state.md, 60_exceptions.md) -/

/-- R20: the packing of a pixel into a word, `r[31:24] g[23:16] b[15:8] a[7:0]`. -/
def Obligations.PixelPacksRedHighest : Prop :=
  ∀ p : Pixel, (packPixel p).toNat =
    p.r.toNat * 2 ^ 24 + p.g.toNat * 2 ^ 16 + p.b.toNat * 2 ^ 8 + p.a.toNat

/-- R21: the codes of the phases, no other value being held; what each phase leads to; in IDLE, DONE and ERROR nothing
happens until a command (that a waiting step answers the same state is the model's choice, log entry 1), START leading to
HEADER and, from any phase, RESET to IDLE. -/
def Obligations.PhaseCodesAndTransitions : Prop :=
  (Phase.idle.code.toNat = 0 ∧ Phase.header.code.toNat = 1 ∧ Phase.decode.code.toNat = 2 ∧ Phase.done.code.toNat = 3 ∧
    Phase.error.code.toNat = 4 ∧ ∀ p : Phase, p.code.toNat ≤ 4) ∧
  ∀ s t : State, step s = .next t →
    (s.hostCmd = none → s.phase = .idle ∨ s.phase = .done ∨ s.phase = .error → t = s) ∧
    (s.hostCmd = none → s.phase = .header → t.phase = .decode ∨ t.phase = .done ∨ t.phase = .error) ∧
    (s.hostCmd = none → s.phase = .decode → t.phase = .decode ∨ t.phase = .done ∨ t.phase = .error) ∧
    (∀ bytes, s.hostCmd = some (.start bytes) → (s.phase = .idle ∨ s.phase = .done ∨ s.phase = .error) ∧
      t.phase = .header) ∧
    (s.hostCmd = some .reset → t.phase = .idle)

/-- The model's choice (log entry 1): waiting in IDLE, DONE or ERROR is a step that answers the same state. -/
def Obligations.WaitingAnswersTheSameState : Prop :=
  ∀ s : State, s.hostCmd = none → s.phase = .idle ∨ s.phase = .done ∨ s.phase = .error → step s = .next s

/-! ### Reset and START (10_state.md R33, 40_header.md R100, 70_reset_and_hazards.md) -/

/-- R33: the values of every element after RESET, by the state after reset and by the command (`IN` and `L` are
unspecified there), and after START, `IN` and `L` being as the host supplies them. -/
def Obligations.ResetAndStartValues : Prop :=
  (State.reset.phase = .idle ∧ State.reset.Fresh) ∧
  ∀ s t : State, step s = .next t →
    (s.hostCmd = some .reset → t.phase = .idle ∧ t.Fresh) ∧
    (∀ bytes, s.hostCmd = some (.start bytes) →
      t.phase = .header ∧ t.Fresh ∧ t.len = bytes.length ∧ ∀ i, t.inByte i = bytes[i]?)

/-- R230: RESET is accepted in every phase, discards a pending step, and sets every element to its reset value; nothing is
handed over; and START then reaches the header step with the cursor at 0, the entry point. -/
def Obligations.ResetCommandResetsFromAnyPhase : Prop :=
  ∀ s : State, s.hostCmd = some .reset → ∃ t, step s = .next t ∧
    t.phase = .idle ∧ t.Fresh ∧ t.handover = none ∧ t.hostCmd = none ∧ t.outCapacity = s.outCapacity ∧
    ∀ bytes, ∃ u, step (t.issue (.start bytes)) = .next u ∧ u.AtHeader ∧ u.pos = 0

/-- R100: START in IDLE, DONE or ERROR loads the input and rewrites every element. -/
def Obligations.StartLoadsTheInputAndRewritesEverything : Prop :=
  ∀ (s : State) (bytes : List Byte), s.hostCmd = some (.start bytes) →
    s.phase = .idle ∨ s.phase = .done ∨ s.phase = .error →
    ∃ t, step s = .next t ∧ t.phase = .header ∧ t.len = bytes.length ∧ (∀ i, t.inByte i = bytes[i]?) ∧ t.Fresh ∧
      t.hostCmd = none ∧ t.outCapacity = s.outCapacity

/-- R232 and its entry I4: START while a decode runs is no move of the host's; the model refuses it
(log entry 3). -/
def Obligations.StartWhileBusyIsRefused : Prop :=
  ∀ (s : State) (bytes : List Byte), s.hostCmd = some (.start bytes) → s.phase = .header ∨ s.phase = .decode →
    step s = .refused .startWhileBusy

/-- R236: two decodes of the same bytes go the same way, whatever ran before them (on one platform, so with one output
capacity). -/
def Obligations.OutcomeDependsOnlyOnTheInput : Prop :=
  ∀ (s s' : State) (bytes : List Byte), s.acceptsStart = true → s'.acceptsStart = true → s.outCapacity = s'.outCapacity →
    ∀ k, core.run (k + 1) (s.issue (.start bytes)) = core.run (k + 1) (s'.issue (.start bytes))

/-! ### Memory spaces (20_memory.md) -/

/-- R56: the block never writes `IN`: no step of its own changes a byte of it, or `L`. -/
def Obligations.NoStepOfTheBlockWritesTheInput : Prop :=
  ∀ s t : State, s.hostCmd = none → step s = .next t →
    t.input = s.input ∧ t.len = s.len ∧ ∀ a, t.inByte a = s.inByte a

/-- R55: the block never reads at or above `L`: a step goes the same way whatever stands there; and too few bytes end in
the error of the check that comes before the read. -/
def Obligations.NothingIsReadAtOrAboveTheLength : Prop :=
  (∀ (s : State) (m : Memory), (∀ a, a < s.len → Memory.read m a = Memory.read s.input a) → s.hostCmd = none →
    step { s with input := m } = onNext (fun t => { t with input := m }) (step s)) ∧
  (∀ s : State, s.AtHeader → s.len < 14 → ∃ t, step s = .next t ∧ t.phase = .error) ∧
  (∀ s : State, s.AtChunk → s.pos = s.len → ∃ t, step s = .next t ∧ t.phase = .error) ∧
  (∀ (s : State) (b0 : Byte), s.AtChunk → s.inByte s.pos = some b0 → s.len < s.pos + chunkLen b0 →
    ∃ t, step s = .next t ∧ t.phase = .error)

/-- R57: a step without a command only appends to `OUT`, from index `COUNT` on, copies of the new `PREV` and none outside a
chunk step; it reads nothing of what `OUT` holds; at DONE, `OUT[i]` is the pixel at column `i mod HDR_WIDTH`, row
`i div HDR_WIDTH`. -/
def Obligations.OutputIsAppendedInRowMajorOrder : Prop :=
  (∀ s t : State, s.hostCmd = none → step s = .next t →
    ∃ m, m ≤ 62 ∧ t.out = s.out ++ List.replicate m t.prev ∧ t.count = s.count + m ∧ (s.phase ≠ .decode → m = 0)) ∧
  (∀ (s : State) (o : List Pixel), s.hostCmd = none → o.length = s.count →
    step { s with out := o } = onNext (fun t => { t with out := o ++ t.out.drop s.count }) (step s)) ∧
  (∀ s : State, s.Inv → s.phase = .done → ∀ i, i < s.count →
    s.pixelAt (i % s.hdrWidth.toNat) (i / s.hdrWidth.toNat) = s.out[i]?)

/-- R59: the sink is given the output at DONE only; it is then exactly `N` pixels, and nothing is written to it any
more. -/
def Obligations.HandoverOnlyAtDoneAndWhole : Prop :=
  ∀ s : State, s.Inv →
    (s.phase ≠ .done → s.handover = none) ∧
    (s.phase = .done → s.handover = some (s.hdrWidth, s.hdrHeight, s.out) ∧
      s.out.length = s.n ∧ s.out.length = s.hdrWidth.toNat * s.hdrHeight.toNat ∧
      (s.hostCmd = none → ∀ t, step s = .next t → t.out = s.out))

/-- Memories in the model's canonical form (log entry 8) that read alike are equal. -/
def Obligations.CanonicalMemoriesThatReadAlikeAreEqual : Prop :=
  ∀ m m' : Memory, Memory.wf m → Memory.wf m' → (∀ a, Memory.read m a = Memory.read m' a) → m = m'

/-- R5 and D23: with the widths R5 asks for, neither the cursor nor the pixel counter of the hardware wraps. -/
def Obligations.CursorAndCounterFitTheirWidths : Prop :=
  ∀ (s : State) (inCapacity posBits countBits : Nat), s.Inv → s.len ≤ inCapacity → inCapacity < 2 ^ posBits →
    s.outCapacity < 2 ^ countBits → s.pos < 2 ^ posBits ∧ s.count < 2 ^ countBits ∧ s.n < 2 ^ countBits

/-! ### Encoding (30_encoding.md) -/

/-- R78, R74: the lead bytes partition into the six kinds, 0xFE and 0xFF before the two-bit tags. -/
def Obligations.LeadBytesPartitionIntoSixKinds : Prop :=
  ∀ b0 : Byte,
    (dispatch b0 = .index ↔ b0.toNat ≤ 0x3F) ∧
    (dispatch b0 = .diff ↔ 0x40 ≤ b0.toNat ∧ b0.toNat ≤ 0x7F) ∧
    (dispatch b0 = .luma ↔ 0x80 ≤ b0.toNat ∧ b0.toNat ≤ 0xBF) ∧
    (dispatch b0 = .run ↔ 0xC0 ≤ b0.toNat ∧ b0.toNat ≤ 0xFD) ∧
    (dispatch b0 = .rgb ↔ b0.toNat = 0xFE) ∧
    (dispatch b0 = .rgba ↔ b0.toNat = 0xFF)

/-- R73: the length of a chunk from its lead byte, and decoding takes exactly that many bytes, or fails for want of
them. -/
def Obligations.ChunkLengthFromTheLeadByteAlone : Prop :=
  ∀ b0 : Byte,
    (b0.toNat = 0xFE → chunkLen b0 = 4) ∧ (b0.toNat = 0xFF → chunkLen b0 = 5) ∧
    (b0.toNat ≤ 0x7F → chunkLen b0 = 1) ∧ (0x80 ≤ b0.toNat → b0.toNat ≤ 0xBF → chunkLen b0 = 2) ∧
    (0xC0 ≤ b0.toNat → b0.toNat ≤ 0xFD → chunkLen b0 = 1) ∧
    ∀ rest : List Byte,
      ((b0 :: rest).length < chunkLen b0 → decode .chunk (b0 :: rest) = .error (.truncated b0)) ∧
      (chunkLen b0 ≤ (b0 :: rest).length → ∃ i, i.length = chunkLen b0 ∧
        decode .chunk (b0 :: rest) = .ok (i, (b0 :: rest).drop (chunkLen b0)))

/-- R75: where every field of every chunk stands. -/
def Obligations.FieldsStandWhereTheFormatsSay : Prop :=
  ∀ (b0 b1 b2 b3 b4 : Byte) (rest : List Byte),
    (b0.toNat = 0xFE → decode .chunk (b0 :: b1 :: b2 :: b3 :: rest) = .ok (.rgb b1 b2 b3, rest)) ∧
    (b0.toNat = 0xFF → decode .chunk (b0 :: b1 :: b2 :: b3 :: b4 :: rest) = .ok (.rgba b1 b2 b3 b4, rest)) ∧
    (b0.toNat ≤ 0x3F → ∃ idx, decode .chunk (b0 :: rest) = .ok (.index idx, rest) ∧ idx.toNat = b0.toNat) ∧
    (0x40 ≤ b0.toNat → b0.toNat ≤ 0x7F → ∃ dr dg db, decode .chunk (b0 :: rest) = .ok (.diff dr dg db, rest) ∧
      b0.toNat = 0x40 + dr.toNat * 16 + dg.toNat * 4 + db.toNat) ∧
    (0x80 ≤ b0.toNat → b0.toNat ≤ 0xBF → ∃ dg drdg dbdg,
      decode .chunk (b0 :: b1 :: rest) = .ok (.luma dg drdg dbdg, rest) ∧
      b0.toNat = 0x80 + dg.toNat ∧ b1.toNat = drdg.toNat * 16 + dbdg.toNat) ∧
    (0xC0 ≤ b0.toNat → b0.toNat ≤ 0xFD → ∃ n, decode .chunk (b0 :: rest) = .ok (.run n, rest) ∧
      b0.toNat = 0xC0 + n.toNat)

/-- R76: how fields become operands, and their ranges; for LUMA's red and blue, that they are `dg - 8` plus the field. -/
def Obligations.FieldsBecomeBiasedOperands : Prop :=
  (∀ f : BitVec 2, diffDelta f = (f.toNat : Int) - 2 ∧ -2 ≤ diffDelta f ∧ diffDelta f ≤ 1) ∧
  (∀ f : BitVec 6, lumaGreen f = (f.toNat : Int) - 32 ∧ -32 ≤ lumaGreen f ∧ lumaGreen f ≤ 31) ∧
  (∀ (dg : BitVec 6) (f : BitVec 4), lumaSide dg f = ((dg.toNat : Int) - 32) - 8 + f.toNat ∧
    -40 ≤ lumaSide dg f ∧ lumaSide dg f ≤ 38) ∧
  (∀ f : BitVec 6, runLength f = f.toNat + 1)

/-- R77: every RUN that decodes repeats 1 to 62 times, and every such count is decoded from some lead byte; the two bytes
above those are RGB and RGBA. -/
def Obligations.RunsRepeatOneToSixtyTwoTimes : Prop :=
  (∀ (bs rest : List Byte) (n : BitVec 6), decode .chunk bs = .ok (.run n, rest) →
    n.toNat ≤ 61 ∧ 1 ≤ runLength n ∧ runLength n ≤ 62) ∧
  (∀ k, 1 ≤ k → k ≤ 62 → ∃ (b0 : Byte) (n : BitVec 6), ∀ rest,
    decode .chunk (b0 :: rest) = .ok (.run n, rest) ∧ runLength n = k) ∧
  dispatch (0b11#2 ++ 62#6) = .rgb ∧ dispatch (0b11#2 ++ 63#6) = .rgba

/-- Every well-formed instruction, with every operand at every value, decodes from its encoding. -/
def Obligations.DecodeOfEncodeIsTheInstruction : Prop :=
  ∀ (i : Instr) (rest : List Byte), i.wellFormed = true → decode i.place (encode i ++ rest) = .ok (i, rest)

/-- Whatever decodes is a well-formed instruction of its place, and its encoding is the bytes it was decoded from. -/
def Obligations.EncodeOfDecodeIsTheBytes : Prop :=
  ∀ (p : Place) (bs rest : List Byte) (i : Instr), decode p bs = .ok (i, rest) →
    i.place = p ∧ i.wellFormed = true ∧ encode i ++ rest = bs

/-- Words written out from the encodings of R71 and R75 decode to what they stand for. -/
def Obligations.WordsOfTheSpecDecode : Prop :=
  decode .chunk [0xFE#8, 0x64#8, 0x96#8, 0xC8#8] = .ok (.rgb 100#8 150#8 200#8, []) ∧
  decode .chunk [0xFF#8, 0x0A#8, 0x14#8, 0x1E#8, 0x28#8] = .ok (.rgba 10#8 20#8 30#8 40#8, []) ∧
  decode .chunk [0x07#8] = .ok (.index 7#6, []) ∧
  decode .chunk [0x4D#8] = .ok (.diff 0#2 3#2 1#2, []) ∧
  decode .chunk [0xA5#8, 0x5A#8] = .ok (.luma 37#6 5#4 10#4, []) ∧
  decode .chunk [0xC4#8] = .ok (.run 4#6, []) ∧
  decode .header [0x71#8, 0x6F#8, 0x69#8, 0x66#8, 0#8, 0#8, 0#8, 2#8, 0#8, 0#8, 1#8, 0#8, 3#8, 1#8] =
    .ok (.header 0x716F6966#32 2#32 256#32 3#8 1#8, [])

/-- R82: an operand outside its range is rejected, and encoding then decoding returns the operands written. -/
def Obligations.AssembledChunksDecodeToTheirOperands : Prop :=
  (∀ r g b : Int, (assemble [.rgb r g b] = none ↔ ¬ ((0 ≤ r ∧ r ≤ 255) ∧ (0 ≤ g ∧ g ≤ 255) ∧ (0 ≤ b ∧ b ≤ 255))) ∧
    ∀ bs, assemble [.rgb r g b] = some bs → ∃ r' g' b', decode .chunk bs = .ok (.rgb r' g' b', []) ∧
      (r'.toNat : Int) = r ∧ (g'.toNat : Int) = g ∧ (b'.toNat : Int) = b) ∧
  (∀ r g b a : Int, (assemble [.rgba r g b a] = none ↔
      ¬ ((0 ≤ r ∧ r ≤ 255) ∧ (0 ≤ g ∧ g ≤ 255) ∧ (0 ≤ b ∧ b ≤ 255) ∧ (0 ≤ a ∧ a ≤ 255))) ∧
    ∀ bs, assemble [.rgba r g b a] = some bs → ∃ r' g' b' a', decode .chunk bs = .ok (.rgba r' g' b' a', []) ∧
      (r'.toNat : Int) = r ∧ (g'.toNat : Int) = g ∧ (b'.toNat : Int) = b ∧ (a'.toNat : Int) = a) ∧
  (∀ i : Int, (assemble [.index i] = none ↔ ¬ (0 ≤ i ∧ i ≤ 63)) ∧
    ∀ bs, assemble [.index i] = some bs → ∃ idx, decode .chunk bs = .ok (.index idx, []) ∧ (idx.toNat : Int) = i) ∧
  (∀ dr dg db : Int, (assemble [.diff dr dg db] = none ↔
      ¬ ((-2 ≤ dr ∧ dr ≤ 1) ∧ (-2 ≤ dg ∧ dg ≤ 1) ∧ (-2 ≤ db ∧ db ≤ 1))) ∧
    ∀ bs, assemble [.diff dr dg db] = some bs → ∃ fr fg fb, decode .chunk bs = .ok (.diff fr fg fb, []) ∧
      diffDelta fr = dr ∧ diffDelta fg = dg ∧ diffDelta fb = db) ∧
  (∀ dg drdg dbdg : Int, (assemble [.luma dg drdg dbdg] = none ↔
      ¬ ((-32 ≤ dg ∧ dg ≤ 31) ∧ (-8 ≤ drdg ∧ drdg ≤ 7) ∧ (-8 ≤ dbdg ∧ dbdg ≤ 7))) ∧
    ∀ bs, assemble [.luma dg drdg dbdg] = some bs → ∃ fg fr fb, decode .chunk bs = .ok (.luma fg fr fb, []) ∧
      lumaGreen fg = dg ∧ lumaSide fg fr - dg = drdg ∧ lumaSide fg fb - dg = dbdg) ∧
  (∀ n : Int, (assemble [.run n] = none ↔ ¬ (1 ≤ n ∧ n ≤ 62)) ∧
    ∀ bs, assemble [.run n] = some bs → ∃ f, decode .chunk bs = .ok (.run f, []) ∧ (runLength f : Int) = n)

/-! ### The header step (40_header.md) -/

/-- R101 and R51: with 14 bytes present, the header step runs the header whose fields are read big-endian. -/
def Obligations.HeaderStepReadsItsFieldsBigEndian : Prop :=
  ∀ (s : State) (b : Nat → Byte), s.AtHeader → 14 ≤ s.len → (∀ i, i < 14 → s.inByte i = some (b i)) →
    step s = exec (.header
      (BitVec.ofNat 32 ((b 0).toNat * 2 ^ 24 + (b 1).toNat * 2 ^ 16 + (b 2).toNat * 2 ^ 8 + (b 3).toNat))
      (BitVec.ofNat 32 ((b 4).toNat * 2 ^ 24 + (b 5).toNat * 2 ^ 16 + (b 6).toNat * 2 ^ 8 + (b 7).toNat))
      (BitVec.ofNat 32 ((b 8).toNat * 2 ^ 24 + (b 9).toNat * 2 ^ 16 + (b 10).toNat * 2 ^ 8 + (b 11).toNat))
      (b 12) (b 13)) s

/-- R201: fewer than 14 bytes raise `MalformedHeader`, which writes nothing but the error record and the phase. -/
def Obligations.ShortHeaderIsMalformed : Prop :=
  ∀ s : State, s.AtHeader → s.len < 14 →
    step s = .next { s with phase := .error, errCode := .malformedHeader, errField := 0#2, errValue := 0#32 } ∧
    (s.Inv → s.pos = 0 ∧ s.hdrMagic = 0#32 ∧ s.hdrWidth = 0#32 ∧ s.hdrHeight = 0#32 ∧ s.hdrChannels = 0#8 ∧
      s.hdrColorspace = 0#8)

/-- R102: the first failing check of magic, channels, colorspace is reported; the header registers keep what was read and
nothing else changes. -/
def Obligations.FirstIllegalHeaderFieldIsReported : Prop :=
  ∀ (s : State) (m w h : Word) (ch cs : Byte),
    let t (f : BitVec 2) (v : Word) : State :=
      { s with
        hdrMagic := m, hdrWidth := w, hdrHeight := h, hdrChannels := ch, hdrColorspace := cs, phase := .error,
        errCode := .invalidHeaderField, errField := f, errValue := v }
    (m ≠ 0x716F6966#32 → exec (.header m w h ch cs) s = .next (t 0#2 m)) ∧
    (m = 0x716F6966#32 → ch ≠ 3#8 → ch ≠ 4#8 →
      exec (.header m w h ch cs) s = .next (t 1#2 (BitVec.ofNat 32 ch.toNat))) ∧
    (m = 0x716F6966#32 → ch = 3#8 ∨ ch = 4#8 → cs ≠ 0#8 → cs ≠ 1#8 →
      exec (.header m w h ch cs) s = .next (t 2#2 (BitVec.ofNat 32 cs.toNat)))

/-- R103, R63: a legal header whose pixel total the output can hold sets `N` to the exact product, below 2^64, `POS` to 14
and the phase to DECODE, or to DONE when there are no pixels, and nothing else changes but the header registers; one
whose total exceeds the output's capacity is refused. -/
def Obligations.LegalHeaderOpensTheStreamOrIsRefused : Prop :=
  ∀ (s : State) (m w h : Word) (ch cs : Byte), m = 0x716F6966#32 → ch = 3#8 ∨ ch = 4#8 → cs = 0#8 ∨ cs = 1#8 →
    (w.toNat * h.toNat ≤ s.outCapacity →
      exec (.header m w h ch cs) s = .next
        { s with
          hdrMagic := m, hdrWidth := w, hdrHeight := h, hdrChannels := ch, hdrColorspace := cs,
          n := w.toNat * h.toNat, pos := 14,
          phase := if w.toNat * h.toNat = 0 then .done else .decode }) ∧
    (s.outCapacity < w.toNat * h.toNat → exec (.header m w h ch cs) s = .refused .outCapacityExceeded) ∧
    w.toNat * h.toNat < 2 ^ 64

/-- R104: a header of no pixels ends the decode with nothing read after it: no later step of the block's own changes
anything. -/
def Obligations.NoPixelsEndTheDecodeAtOnce : Prop :=
  ∀ (s : State) (m w h : Word) (ch cs : Byte), s.AtHeader → s.Fresh → m = 0x716F6966#32 → ch = 3#8 ∨ ch = 4#8 →
    cs = 0#8 ∨ cs = 1#8 → w = 0#32 ∨ h = 0#32 →
    ∃ t, exec (.header m w h ch cs) s = .next t ∧ t.phase = .done ∧ t.n = 0 ∧ t.count = 0 ∧ t.pos = 14 ∧
      t.handover = some (w, h, []) ∧ ∀ u, step t = .next u → u = t

/-- R105: the channel count and the colorspace are validated and copied by the header step and change nothing in any
later step. -/
def Obligations.ChannelsAndColorspaceAffectNoDecoding : Prop :=
  (∀ (s t : State) (m w h : Word) (ch cs : Byte), exec (.header m w h ch cs) s = .next t →
    t.hdrChannels = ch ∧ t.hdrColorspace = cs ∧
      (t.phase ≠ .error → (ch = 3#8 ∨ ch = 4#8) ∧ (cs = 0#8 ∨ cs = 1#8))) ∧
  (∀ (s : State) (ch cs : Byte), s.phase ≠ .header → s.hostCmd = none →
    step { s with hdrChannels := ch, hdrColorspace := cs } =
      onNext (fun t => { t with hdrChannels := ch, hdrColorspace := cs }) (step s))

/-- R23: without a command, only a header step writes the header registers and `N`. -/
def Obligations.OnlyTheHeaderStepWritesTheHeaderRegisters : Prop :=
  ∀ s t : State, s.hostCmd = none → s.phase ≠ .header → step s = .next t →
    t.hdrMagic = s.hdrMagic ∧ t.hdrWidth = s.hdrWidth ∧ t.hdrHeight = s.hdrHeight ∧ t.hdrChannels = s.hdrChannels ∧
      t.hdrColorspace = s.hdrColorspace ∧ t.n = s.n

/-! ### The common chunk step (41_chunk_step.md) -/

/-- A step runs the instruction that the bytes at the place of fetching decode to. -/
def Obligations.StepRunsTheDecodedInstruction : Prop :=
  (∀ (s : State) (i : Instr) (rest : List Byte), s.AtChunk → s.pos < s.len → decode .chunk s.remaining = .ok (i, rest) →
    step s = exec i s) ∧
  (∀ (s : State) (i : Instr) (rest : List Byte), s.AtHeader →
    decode .header (Memory.readBytes s.input 0 s.len) = .ok (i, rest) → step s = exec i s)

/-- R121: the end of the input at a chunk boundary raises `PixelCountShort`, which writes nothing but the error record and
the phase. -/
def Obligations.InputEndingAtABoundaryIsPixelCountShort : Prop :=
  ∀ s : State, s.AtChunk → s.pos = s.len →
    step s = .next { s with phase := .error, errCode := .pixelCountShort, errField := 0#2, errValue := 0#32 }

/-- R122, R203: a lead byte whose chunk is longer than what remains raises `TruncatedStream` with the lead byte, and writes
nothing else; only RGB, RGBA and LUMA can be truncated. -/
def Obligations.ChunkCutShortIsTruncatedStream : Prop :=
  ∀ (s : State) (b0 : Byte), s.AtChunk → s.inByte s.pos = some b0 → s.len < s.pos + chunkLen b0 →
    step s = .next { s with
      phase := .error, errCode := .truncatedStream, errField := 0#2, errValue := BitVec.ofNat 32 b0.toNat } ∧
    (dispatch b0 = .rgb ∨ dispatch b0 = .rgba ∨ dispatch b0 = .luma)

/-- R123: the hash, the largest sum, and that any intermediate width of at least 6 bits gives the same. -/
def Obligations.HashIsTheWeightedSumModulo64 : Prop :=
  ∀ p : Pixel,
    (pixelHash p).toNat = (3 * p.r.toNat + 5 * p.g.toNat + 7 * p.b.toNat + 11 * p.a.toNat) % 64 ∧
    3 * p.r.toNat + 5 * p.g.toNat + 7 * p.b.toNat + 11 * p.a.toNat ≤ 6630 ∧
    ∀ w, 6 ≤ w → (pixelHash p).toNat =
      ((3 * BitVec.ofNat w p.r.toNat + 5 * BitVec.ofNat w p.g.toNat + 7 * BitVec.ofNat w p.b.toNat +
        11 * BitVec.ofNat w p.a.toNat : BitVec w).toNat) % 64

/-- R124: every chunk, with pixels still needed, keeps `min(k, N - COUNT)` copies of its pixel (one unless it is a RUN),
sets `CLIPPED` if that is fewer than it has, makes the pixel `PREV` and stores it in the slot of its hash. -/
def Obligations.EveryChunkCommitsAlike : Prop :=
  ∀ (i : Instr) (s : State), i.place = .chunk → i.wellFormed = true → s.count < s.n →
    ∃ t k, exec i s = .next t ∧ 1 ≤ k ∧ k ≤ 62 ∧ ((∀ n, i ≠ .run n) → k = 1) ∧ (∀ n, i = .run n → k = n.toNat + 1) ∧
      ChunkEffect s t t.prev (min k (s.n - s.count)) i.length ∧
      t.clipped = (s.clipped || decide (min k (s.n - s.count) < k))

/-- R125: from a state with pixels still needed, a chunk step that raises nothing ends the decode exactly when `COUNT`
reaches `N`, and never passes it; no later step of the block's own changes anything, whatever bytes remain. -/
def Obligations.DecodeHaltsExactlyAtTheTotal : Prop :=
  ∀ s t : State, s.AtChunk → s.count < s.n → step s = .next t →
    t.count ≤ t.n ∧ t.n = s.n ∧ (t.phase = .done ↔ t.count = t.n) ∧
    (t.phase = .done → ∀ u, step t = .next u → u = t)

/-- R126: the pixel a chunk produces, and so `PREV` and every slot after it, depends on its bytes, `PREV` and `cache`
alone. -/
def Obligations.ChunkMeaningDependsOnPrevAndCacheAlone : Prop :=
  ∀ (i : Instr) (s s' t t' : State), i.place = .chunk → s.prev = s'.prev → s.cache = s'.cache →
    exec i s = .next t → exec i s' = .next t' → t.prev = t'.prev ∧ t.cache = t'.cache

/-- R127: the next chunk sees the `PREV` and the slot that a chunk wrote. -/
def Obligations.NextChunkSeesThePreviousWrites : Prop :=
  ∀ (i : Instr) (s t : State), i.place = .chunk → exec i s = .next t →
    (∃ u, exec (.index (pixelHash t.prev)) t = .next u ∧ u.prev = t.prev) ∧
    (∀ n, ∃ u, exec (.run n) t = .next u ∧ u.prev = t.prev) ∧
    (∀ r g b, ∃ u, exec (.rgb r g b) t = .next u ∧ u.prev = ⟨r, g, b, t.prev.a⟩) ∧
    (∀ dr dg db, ∃ u, exec (.diff dr dg db) t = .next u ∧
      (u.prev.r.toNat : Int) = ((t.prev.r.toNat : Int) + ((dr.toNat : Int) - 2)) % 256 ∧
      (u.prev.g.toNat : Int) = ((t.prev.g.toNat : Int) + ((dg.toNat : Int) - 2)) % 256 ∧
      (u.prev.b.toNat : Int) = ((t.prev.b.toNat : Int) + ((db.toNat : Int) - 2)) % 256 ∧ u.prev.a = t.prev.a) ∧
    (∀ dg x y, ∃ u, exec (.luma dg x y) t = .next u ∧
      (u.prev.r.toNat : Int) = ((t.prev.r.toNat : Int) + (((dg.toNat : Int) - 32) - 8 + x.toNat)) % 256 ∧
      (u.prev.g.toNat : Int) = ((t.prev.g.toNat : Int) + ((dg.toNat : Int) - 32)) % 256 ∧
      (u.prev.b.toNat : Int) = ((t.prev.b.toNat : Int) + (((dg.toNat : Int) - 32) - 8 + y.toNat)) % 256 ∧
      u.prev.a = t.prev.a)

/-- R24: a header step that raises nothing sets the cursor to 14; a chunk step that raises nothing moves it forward by its
own chunk's length, the last chunk's too; neither leaves it past `L`. -/
def Obligations.CursorMovesForwardByTheChunkLength : Prop :=
  (∀ s t : State, s.AtHeader → step s = .next t →
    (t.phase = .error ∧ t.pos = s.pos) ∨ (t.pos = 14 ∧ t.pos ≤ t.len)) ∧
  (∀ s t : State, s.AtChunk → step s = .next t →
    (t.phase = .error ∧ t.pos = s.pos) ∨
    (∃ b0, s.inByte s.pos = some b0 ∧ t.pos = s.pos + chunkLen b0 ∧ t.pos ≤ t.len ∧ s.pos < t.pos))

/-- R129: a chunk step that does not raise advances `POS`, and at most `L - POS` chunk steps and one more end a decode. -/
def Obligations.EveryDecodeEnds : Prop :=
  ∀ s : State, s.Inv → s.AtChunk →
    (∀ t, step s = .next t → t.phase ≠ .error → s.pos + 1 ≤ t.pos) ∧
    ∃ k t, k ≤ s.len - s.pos + 1 ∧ core.run k s = .next t ∧ t.Ended

/-! ### The six chunk kinds (42_literal.md to 45_run.md) -/

/-- R140: RGB takes r, g, b from its operands and alpha from `PREV`. -/
def Obligations.RgbTakesItsOperandsAndKeepsAlpha : Prop :=
  (∀ (s : State) (r g b : Byte), s.count < s.n →
    ∃ t, exec (.rgb r g b) s = .next t ∧ ChunkEffect s t ⟨r, g, b, s.prev.a⟩ 1 4 ∧ t.clipped = s.clipped) ∧
  (∀ s : State, s.AtChunk → s.inByte s.pos = some 0xFE#8 →
    (s.len < s.pos + 4 → ∃ t, step s = .next t ∧ t.phase = .error ∧ t.errCode = .truncatedStream) ∧
    (∀ r g b, s.inByte (s.pos + 1) = some r → s.inByte (s.pos + 2) = some g → s.inByte (s.pos + 3) = some b →
      step s = exec (.rgb r g b) s))

/-- R141: RGBA takes all four channels from its operands. -/
def Obligations.RgbaTakesAllFourOperands : Prop :=
  (∀ (s : State) (r g b a : Byte), s.count < s.n →
    ∃ t, exec (.rgba r g b a) s = .next t ∧ ChunkEffect s t ⟨r, g, b, a⟩ 1 5 ∧ t.clipped = s.clipped) ∧
  (∀ s : State, s.AtChunk → s.inByte s.pos = some 0xFF#8 →
    (s.len < s.pos + 5 → ∃ t, step s = .next t ∧ t.phase = .error ∧ t.errCode = .truncatedStream) ∧
    (∀ r g b a, s.inByte (s.pos + 1) = some r → s.inByte (s.pos + 2) = some g → s.inByte (s.pos + 3) = some b →
      s.inByte (s.pos + 4) = some a → step s = exec (.rgba r g b a) s))

/-- R150: INDEX produces the pixel of its slot; the commit stores it at the slot of its own hash; `INDEX hash(PREV)`
reproduces `PREV` where the invariant holds. -/
def Obligations.IndexProducesThePixelOfItsSlot : Prop :=
  (∀ (s : State) (idx : BitVec 6), s.count < s.n →
    ∃ t, exec (.index idx) s = .next t ∧ ChunkEffect s t (s.cacheRead idx) 1 1 ∧ t.clipped = s.clipped) ∧
  (∀ (s : State) (b0 : Byte), s.AtChunk → s.inByte s.pos = some b0 → b0.toNat ≤ 0x3F →
    step s = exec (.index (BitVec.ofNat 6 b0.toNat)) s) ∧
  (∀ s : State, s.Inv → ∃ t, exec (.index (pixelHash s.prev)) s = .next t ∧ t.prev = s.prev)

/-- R161, R160: DIFF adds each 2-bit field less 2 to its channel, modulo 256, and copies alpha. -/
def Obligations.DiffAddsSmallDeltasModulo256 : Prop :=
  (∀ (s : State) (dr dg db : BitVec 2), s.count < s.n →
    ∃ t p, exec (.diff dr dg db) s = .next t ∧ ChunkEffect s t p 1 1 ∧ t.clipped = s.clipped ∧
      (p.r.toNat : Int) = ((s.prev.r.toNat : Int) + ((dr.toNat : Int) - 2)) % 256 ∧
      (p.g.toNat : Int) = ((s.prev.g.toNat : Int) + ((dg.toNat : Int) - 2)) % 256 ∧
      (p.b.toNat : Int) = ((s.prev.b.toNat : Int) + ((db.toNat : Int) - 2)) % 256 ∧ p.a = s.prev.a) ∧
  (∀ (s : State) (b0 : Byte), s.AtChunk → s.inByte s.pos = some b0 → 0x40 ≤ b0.toNat → b0.toNat ≤ 0x7F →
    step s = exec (.diff (BitVec.ofNat 2 (b0.toNat / 16)) (BitVec.ofNat 2 (b0.toNat / 4)) (BitVec.ofNat 2 b0.toNat)) s)

/-- R162, R160: LUMA adds its green delta, and for red and blue that delta less 8 plus their field, modulo 256, and copies
alpha. -/
def Obligations.LumaAddsCoupledDeltasModulo256 : Prop :=
  (∀ (s : State) (dg : BitVec 6) (drdg dbdg : BitVec 4), s.count < s.n →
    ∃ t p, exec (.luma dg drdg dbdg) s = .next t ∧ ChunkEffect s t p 1 2 ∧ t.clipped = s.clipped ∧
      (p.r.toNat : Int) = ((s.prev.r.toNat : Int) + (((dg.toNat : Int) - 32) - 8 + drdg.toNat)) % 256 ∧
      (p.g.toNat : Int) = ((s.prev.g.toNat : Int) + ((dg.toNat : Int) - 32)) % 256 ∧
      (p.b.toNat : Int) = ((s.prev.b.toNat : Int) + (((dg.toNat : Int) - 32) - 8 + dbdg.toNat)) % 256 ∧
      p.a = s.prev.a) ∧
  (∀ (s : State) (b0 : Byte), s.AtChunk → s.inByte s.pos = some b0 → 0x80 ≤ b0.toNat → b0.toNat ≤ 0xBF →
    (s.pos + 1 = s.len → ∃ t, step s = .next t ∧ t.phase = .error ∧ t.errCode = .truncatedStream) ∧
    (∀ b1, s.inByte (s.pos + 1) = some b1 →
      step s = exec (.luma (BitVec.ofNat 6 b0.toNat) (BitVec.ofNat 4 (b1.toNat / 16)) (BitVec.ofNat 4 b1.toNat)) s))

/-- R180: RUN appends `PREV` its field plus one times, clipped at `N`; it never changes `PREV`, and writes its slot. -/
def Obligations.RunRepeatsThePreviousPixel : Prop :=
  (∀ (s : State) (n : BitVec 6), s.count < s.n →
    ∃ t, exec (.run n) s = .next t ∧ ChunkEffect s t s.prev (min (n.toNat + 1) (s.n - s.count)) 1 ∧
      t.prev = s.prev ∧ t.clipped = (s.clipped || decide (s.n - s.count < n.toNat + 1)) ∧
      (s.n - s.count < n.toNat + 1 → t.phase = .done)) ∧
  (∀ (s : State) (b0 : Byte), s.AtChunk → s.inByte s.pos = some b0 → 0xC0 ≤ b0.toNat → b0.toNat ≤ 0xFD →
    step s = exec (.run (BitVec.ofNat 6 b0.toNat)) s)

/-- R28: START clears `CLIPPED`; a step without a command never clears it and sets it only for a RUN longer than the
pixels needed (with R34's `COUNT < N` in DECODE); it changes nothing else of any step. -/
def Obligations.ClippedIsStickyAndSetOnlyByALongRun : Prop :=
  (∀ (s t : State) (bytes : List Byte), s.hostCmd = some (.start bytes) → step s = .next t → t.clipped = false) ∧
  (∀ s t : State, s.hostCmd = none → (s.phase = .decode → s.count < s.n) → step s = .next t →
    (s.clipped = true → t.clipped = true) ∧
    (s.clipped = false → t.clipped = true → s.phase = .decode ∧ ∃ n : BitVec 6, s.n - s.count < n.toNat + 1 ∧
      step s = exec (.run n) s)) ∧
  (∀ (s : State) (n : BitVec 6) (t : State), s.count < s.n → exec (.run n) s = .next t → s.n - s.count < n.toNat + 1 →
    t.clipped = true) ∧
  (∀ (s : State) (c : Bool), s.hostCmd = none →
    onNext (fun t => { t with clipped := false }) (step { s with clipped := c }) =
      onNext (fun t => { t with clipped := false }) (step s))

/-! ### Errors (60_exceptions.md) -/

/-- R200: the codes of the error kinds, no other value being held, and what each kind says of a reachable state:
which step's check failed, and its field and value; `PixelCountExceeded` is in none. -/
def Obligations.ErrorRegistersTellWhatFailed : Prop :=
  (ErrKind.noError.code.toNat = 0 ∧ ErrKind.malformedHeader.code.toNat = 1 ∧ ErrKind.invalidHeaderField.code.toNat = 2 ∧
    ErrKind.truncatedStream.code.toNat = 3 ∧ ErrKind.pixelCountShort.code.toNat = 4 ∧
    ErrKind.pixelCountExceeded.code.toNat = 5 ∧ ∀ e : ErrKind, e.code.toNat ≤ 5) ∧
  ∀ s : State, Reachable s →
    (s.errCode = .noError ↔ s.phase ≠ .error) ∧
    (s.errCode = .noError → s.errField = 0#2 ∧ s.errValue = 0#32) ∧
    (s.errCode = .malformedHeader → s.len < 14 ∧ s.errField = 0#2 ∧ s.errValue = 0#32) ∧
    (s.errCode = .invalidHeaderField →
      (s.errField = 0#2 ∧ s.errValue = s.hdrMagic ∧ s.hdrMagic ≠ 0x716F6966#32) ∨
      (s.errField = 1#2 ∧ s.errValue.toNat = s.hdrChannels.toNat ∧ s.hdrChannels ≠ 3#8 ∧ s.hdrChannels ≠ 4#8) ∨
      (s.errField = 2#2 ∧ s.errValue.toNat = s.hdrColorspace.toNat ∧ s.hdrColorspace ≠ 0#8 ∧ s.hdrColorspace ≠ 1#8)) ∧
    (s.errCode = .truncatedStream → s.errField = 0#2 ∧
      ∃ b0, s.inByte s.pos = some b0 ∧ s.len < s.pos + chunkLen b0 ∧ s.errValue.toNat = b0.toNat) ∧
    (s.errCode = .pixelCountShort → s.errField = 0#2 ∧ s.errValue = 0#32 ∧ s.pos = s.len ∧ s.count < s.n) ∧
    s.errCode ≠ .pixelCountExceeded

/-- R206: `raise` writes the code, the field, the value and the phase; so an error a step raises writes the error record and
the phase and nothing else, but for the header registers a header step has read; nothing of the failing chunk shows. -/
def Obligations.ErrorEntryIsPrecise : Prop :=
  (∀ (s : State) (e : ErrKind) (f : BitVec 2) (v : Word),
    s.raise e f v = { s with errCode := e, errField := f, errValue := v, phase := .error }) ∧
  ∀ s t : State, s.hostCmd = none → s.phase ≠ .error → step s = .next t → t.phase = .error →
    (s.phase = .decode →
      t = { s with phase := .error, errCode := t.errCode, errField := t.errField, errValue := t.errValue }) ∧
    (s.phase = .header →
      t = { s with
        phase := .error, errCode := t.errCode, errField := t.errField, errValue := t.errValue, hdrMagic := t.hdrMagic,
        hdrWidth := t.hdrWidth, hdrHeight := t.hdrHeight, hdrChannels := t.hdrChannels,
        hdrColorspace := t.hdrColorspace }) ∧
    (s.phase = .decode ∨ s.phase = .header)

/-- R29: without a command, a step that does not enter ERROR leaves the error registers alone. -/
def Obligations.OnlyErrorEntryWritesTheErrorRegisters : Prop :=
  ∀ s t : State, s.hostCmd = none → step s = .next t → s.phase = .error ∨ t.phase ≠ .error →
    t.errCode = s.errCode ∧ t.errField = s.errField ∧ t.errValue = s.errValue

/-- R207: ERROR is left by START or RESET only; without a command nothing ever changes there, so no error follows it. -/
def Obligations.ErrorIsLeftByCommandOnly : Prop :=
  ∀ s : State, s.phase = .error →
    (s.hostCmd = none → ∀ k t, core.run k s = .next t → t = s) ∧
    (∀ t, step s = .next t → t.phase ≠ .error → s.hostCmd = some .reset ∨ ∃ bytes, s.hostCmd = some (.start bytes))

/-- R205: no step raises `PixelCountExceeded`, and no reachable state holds it or more than `N` pixels. -/
def Obligations.PixelCountExceededIsNeverRaised : Prop :=
  (∀ s t : State, step s = .next t → t.errCode = .pixelCountExceeded → s.errCode = .pixelCountExceeded) ∧
  (∀ s : State, Reachable s → s.errCode ≠ .pixelCountExceeded ∧ s.count ≤ s.n)

/-- R208: from START, every decode whose header the platform accepts ends, and the outcome is one of: DONE with exactly
the declared number of pixels, or ERROR with one kind and nothing handed over, `OUT` being empty after a header
error. -/
def Obligations.EveryStartedDecodeSucceedsWholeOrFailsByName : Prop :=
  ∀ (s : State) (bytes : List Byte), s.acceptsStart = true →
    (∃ k t, k ≤ bytes.length + 3 ∧ core.run k (s.issue (.start bytes)) = .next t ∧
      ((t.phase = .done ∧ t.errCode = .noError ∧
          ∃ px, t.handover = some (t.hdrWidth, t.hdrHeight, px) ∧
            px.length = t.hdrWidth.toNat * t.hdrHeight.toNat) ∨
        (t.phase = .error ∧ t.handover = none ∧
          (((t.errCode = .malformedHeader ∨ t.errCode = .invalidHeaderField) ∧ t.out = []) ∨
            t.errCode = .truncatedStream ∨ t.errCode = .pixelCountShort)))) ∨
    (∃ k, k ≤ 2 ∧ core.run k (s.issue (.start bytes)) = .refused .outCapacityExceeded)

/-! ### The machine's invariant -/

/-- The invariant holds after reset, whatever the platform's output capacity. -/
def Obligations.InvariantHoldsAtReset : Prop :=
  ∀ capacity, State.Inv { State.reset with outCapacity := capacity }

/-- Every step, a command taken among them, keeps the invariant. -/
def Obligations.EveryStepKeepsTheInvariant : Prop :=
  ∀ s t : State, s.Inv → step s = .next t → t.Inv

/-- R34: the six items, in every reachable state. -/
def Obligations.ReachableStatesSatisfyTheSixInvariants : Prop :=
  ∀ s : State, Reachable s →
    (s.phase = .decode ∨ s.phase = .done ∨ s.errCode = .truncatedStream ∨ s.errCode = .pixelCountShort →
      s.count ≤ s.n ∧ s.n = s.hdrWidth.toNat * s.hdrHeight.toNat) ∧
    (s.phase = .decode → s.count < s.n) ∧
    (s.phase = .done → s.count = s.n) ∧
    s.cacheRead (pixelHash s.prev) = s.prev ∧
    (∀ i : BitVec 6, s.cacheRead i = ⟨0#8, 0#8, 0#8, 255#8⟩ ∨ pixelHash (s.cacheRead i) = i) ∧
    (s.phase = .decode ∨ s.phase = .done → 14 ≤ s.pos ∧ s.pos ≤ s.len)

/-- A step from a state of the invariant never stops with a fault, and refuses only for the output's capacity in a header
step or START while busy. -/
def Obligations.NoFaultAndOnlyTheNamedRefusals : Prop :=
  ∀ s : State, s.Inv →
    (∀ r, step s ≠ .fault r) ∧
    (∀ r, step s = .refused r →
      (r = .outCapacityExceeded ∧ s.phase = .header ∧ s.hostCmd = none) ∨
      (r = .startWhileBusy ∧ (s.phase = .header ∨ s.phase = .decode) ∧ s.hostCmd ≠ none))
end

