-- ==== Sys2Proof/Laws/State.lean ====
section
/-! SUPPORT. One lemma for each field of State under each named update of it, so that no proof unfolds a record update. -/

namespace Sys2Proof.Machine

/-! ### `State.cacheWrite` -/

@[simp] theorem State.cacheWrite_phase (s : State) (i : BitVec 6) (p : Pixel) : (s.cacheWrite i p).phase = s.phase := rfl
@[simp] theorem State.cacheWrite_input (s : State) (i : BitVec 6) (p : Pixel) : (s.cacheWrite i p).input = s.input := rfl
@[simp] theorem State.cacheWrite_len (s : State) (i : BitVec 6) (p : Pixel) : (s.cacheWrite i p).len = s.len := rfl
@[simp] theorem State.cacheWrite_hdrMagic (s : State) (i : BitVec 6) (p : Pixel) : (s.cacheWrite i p).hdrMagic = s.hdrMagic := rfl
@[simp] theorem State.cacheWrite_hdrWidth (s : State) (i : BitVec 6) (p : Pixel) : (s.cacheWrite i p).hdrWidth = s.hdrWidth := rfl
@[simp] theorem State.cacheWrite_hdrHeight (s : State) (i : BitVec 6) (p : Pixel) : (s.cacheWrite i p).hdrHeight = s.hdrHeight := rfl
@[simp] theorem State.cacheWrite_hdrChannels (s : State) (i : BitVec 6) (p : Pixel) : (s.cacheWrite i p).hdrChannels = s.hdrChannels := rfl
@[simp] theorem State.cacheWrite_hdrColorspace (s : State) (i : BitVec 6) (p : Pixel) : (s.cacheWrite i p).hdrColorspace = s.hdrColorspace := rfl
@[simp] theorem State.cacheWrite_n (s : State) (i : BitVec 6) (p : Pixel) : (s.cacheWrite i p).n = s.n := rfl
@[simp] theorem State.cacheWrite_pos (s : State) (i : BitVec 6) (p : Pixel) : (s.cacheWrite i p).pos = s.pos := rfl
@[simp] theorem State.cacheWrite_prev (s : State) (i : BitVec 6) (p : Pixel) : (s.cacheWrite i p).prev = s.prev := rfl
@[simp] theorem State.cacheWrite_cache (s : State) (i : BitVec 6) (p : Pixel) : (s.cacheWrite i p).cache = s.cache.set i.toNat p i.isLt := rfl
@[simp] theorem State.cacheWrite_out (s : State) (i : BitVec 6) (p : Pixel) : (s.cacheWrite i p).out = s.out := rfl
@[simp] theorem State.cacheWrite_clipped (s : State) (i : BitVec 6) (p : Pixel) : (s.cacheWrite i p).clipped = s.clipped := rfl
@[simp] theorem State.cacheWrite_errCode (s : State) (i : BitVec 6) (p : Pixel) : (s.cacheWrite i p).errCode = s.errCode := rfl
@[simp] theorem State.cacheWrite_errField (s : State) (i : BitVec 6) (p : Pixel) : (s.cacheWrite i p).errField = s.errField := rfl
@[simp] theorem State.cacheWrite_errValue (s : State) (i : BitVec 6) (p : Pixel) : (s.cacheWrite i p).errValue = s.errValue := rfl
@[simp] theorem State.cacheWrite_outCapacity (s : State) (i : BitVec 6) (p : Pixel) : (s.cacheWrite i p).outCapacity = s.outCapacity := rfl
@[simp] theorem State.cacheWrite_hostCmd (s : State) (i : BitVec 6) (p : Pixel) : (s.cacheWrite i p).hostCmd = s.hostCmd := rfl

/-! ### `State.append` -/

@[simp] theorem State.append_phase (s : State) (m : Nat) (p : Pixel) : (s.append m p).phase = s.phase := rfl
@[simp] theorem State.append_input (s : State) (m : Nat) (p : Pixel) : (s.append m p).input = s.input := rfl
@[simp] theorem State.append_len (s : State) (m : Nat) (p : Pixel) : (s.append m p).len = s.len := rfl
@[simp] theorem State.append_hdrMagic (s : State) (m : Nat) (p : Pixel) : (s.append m p).hdrMagic = s.hdrMagic := rfl
@[simp] theorem State.append_hdrWidth (s : State) (m : Nat) (p : Pixel) : (s.append m p).hdrWidth = s.hdrWidth := rfl
@[simp] theorem State.append_hdrHeight (s : State) (m : Nat) (p : Pixel) : (s.append m p).hdrHeight = s.hdrHeight := rfl
@[simp] theorem State.append_hdrChannels (s : State) (m : Nat) (p : Pixel) : (s.append m p).hdrChannels = s.hdrChannels := rfl
@[simp] theorem State.append_hdrColorspace (s : State) (m : Nat) (p : Pixel) : (s.append m p).hdrColorspace = s.hdrColorspace := rfl
@[simp] theorem State.append_n (s : State) (m : Nat) (p : Pixel) : (s.append m p).n = s.n := rfl
@[simp] theorem State.append_pos (s : State) (m : Nat) (p : Pixel) : (s.append m p).pos = s.pos := rfl
@[simp] theorem State.append_prev (s : State) (m : Nat) (p : Pixel) : (s.append m p).prev = s.prev := rfl
@[simp] theorem State.append_cache (s : State) (m : Nat) (p : Pixel) : (s.append m p).cache = s.cache := rfl
@[simp] theorem State.append_out (s : State) (m : Nat) (p : Pixel) : (s.append m p).out = s.out ++ List.replicate m p := rfl
@[simp] theorem State.append_clipped (s : State) (m : Nat) (p : Pixel) : (s.append m p).clipped = s.clipped := rfl
@[simp] theorem State.append_errCode (s : State) (m : Nat) (p : Pixel) : (s.append m p).errCode = s.errCode := rfl
@[simp] theorem State.append_errField (s : State) (m : Nat) (p : Pixel) : (s.append m p).errField = s.errField := rfl
@[simp] theorem State.append_errValue (s : State) (m : Nat) (p : Pixel) : (s.append m p).errValue = s.errValue := rfl
@[simp] theorem State.append_outCapacity (s : State) (m : Nat) (p : Pixel) : (s.append m p).outCapacity = s.outCapacity := rfl
@[simp] theorem State.append_hostCmd (s : State) (m : Nat) (p : Pixel) : (s.append m p).hostCmd = s.hostCmd := rfl

/-! ### `State.setPrev` -/

@[simp] theorem State.setPrev_phase (s : State) (p : Pixel) : (s.setPrev p).phase = s.phase := rfl
@[simp] theorem State.setPrev_input (s : State) (p : Pixel) : (s.setPrev p).input = s.input := rfl
@[simp] theorem State.setPrev_len (s : State) (p : Pixel) : (s.setPrev p).len = s.len := rfl
@[simp] theorem State.setPrev_hdrMagic (s : State) (p : Pixel) : (s.setPrev p).hdrMagic = s.hdrMagic := rfl
@[simp] theorem State.setPrev_hdrWidth (s : State) (p : Pixel) : (s.setPrev p).hdrWidth = s.hdrWidth := rfl
@[simp] theorem State.setPrev_hdrHeight (s : State) (p : Pixel) : (s.setPrev p).hdrHeight = s.hdrHeight := rfl
@[simp] theorem State.setPrev_hdrChannels (s : State) (p : Pixel) : (s.setPrev p).hdrChannels = s.hdrChannels := rfl
@[simp] theorem State.setPrev_hdrColorspace (s : State) (p : Pixel) : (s.setPrev p).hdrColorspace = s.hdrColorspace := rfl
@[simp] theorem State.setPrev_n (s : State) (p : Pixel) : (s.setPrev p).n = s.n := rfl
@[simp] theorem State.setPrev_pos (s : State) (p : Pixel) : (s.setPrev p).pos = s.pos := rfl
@[simp] theorem State.setPrev_prev (s : State) (p : Pixel) : (s.setPrev p).prev = p := rfl
@[simp] theorem State.setPrev_cache (s : State) (p : Pixel) : (s.setPrev p).cache = s.cache := rfl
@[simp] theorem State.setPrev_out (s : State) (p : Pixel) : (s.setPrev p).out = s.out := rfl
@[simp] theorem State.setPrev_clipped (s : State) (p : Pixel) : (s.setPrev p).clipped = s.clipped := rfl
@[simp] theorem State.setPrev_errCode (s : State) (p : Pixel) : (s.setPrev p).errCode = s.errCode := rfl
@[simp] theorem State.setPrev_errField (s : State) (p : Pixel) : (s.setPrev p).errField = s.errField := rfl
@[simp] theorem State.setPrev_errValue (s : State) (p : Pixel) : (s.setPrev p).errValue = s.errValue := rfl
@[simp] theorem State.setPrev_outCapacity (s : State) (p : Pixel) : (s.setPrev p).outCapacity = s.outCapacity := rfl
@[simp] theorem State.setPrev_hostCmd (s : State) (p : Pixel) : (s.setPrev p).hostCmd = s.hostCmd := rfl

/-! ### `State.advance` -/

@[simp] theorem State.advance_phase (s : State) (k : Nat) : (s.advance k).phase = s.phase := rfl
@[simp] theorem State.advance_input (s : State) (k : Nat) : (s.advance k).input = s.input := rfl
@[simp] theorem State.advance_len (s : State) (k : Nat) : (s.advance k).len = s.len := rfl
@[simp] theorem State.advance_hdrMagic (s : State) (k : Nat) : (s.advance k).hdrMagic = s.hdrMagic := rfl
@[simp] theorem State.advance_hdrWidth (s : State) (k : Nat) : (s.advance k).hdrWidth = s.hdrWidth := rfl
@[simp] theorem State.advance_hdrHeight (s : State) (k : Nat) : (s.advance k).hdrHeight = s.hdrHeight := rfl
@[simp] theorem State.advance_hdrChannels (s : State) (k : Nat) : (s.advance k).hdrChannels = s.hdrChannels := rfl
@[simp] theorem State.advance_hdrColorspace (s : State) (k : Nat) : (s.advance k).hdrColorspace = s.hdrColorspace := rfl
@[simp] theorem State.advance_n (s : State) (k : Nat) : (s.advance k).n = s.n := rfl
@[simp] theorem State.advance_pos (s : State) (k : Nat) : (s.advance k).pos = s.pos + k := rfl
@[simp] theorem State.advance_prev (s : State) (k : Nat) : (s.advance k).prev = s.prev := rfl
@[simp] theorem State.advance_cache (s : State) (k : Nat) : (s.advance k).cache = s.cache := rfl
@[simp] theorem State.advance_out (s : State) (k : Nat) : (s.advance k).out = s.out := rfl
@[simp] theorem State.advance_clipped (s : State) (k : Nat) : (s.advance k).clipped = s.clipped := rfl
@[simp] theorem State.advance_errCode (s : State) (k : Nat) : (s.advance k).errCode = s.errCode := rfl
@[simp] theorem State.advance_errField (s : State) (k : Nat) : (s.advance k).errField = s.errField := rfl
@[simp] theorem State.advance_errValue (s : State) (k : Nat) : (s.advance k).errValue = s.errValue := rfl
@[simp] theorem State.advance_outCapacity (s : State) (k : Nat) : (s.advance k).outCapacity = s.outCapacity := rfl
@[simp] theorem State.advance_hostCmd (s : State) (k : Nat) : (s.advance k).hostCmd = s.hostCmd := rfl

/-! ### `State.markClipped` -/

@[simp] theorem State.markClipped_phase (s : State) (k : Nat) : (s.markClipped k).phase = s.phase := rfl
@[simp] theorem State.markClipped_input (s : State) (k : Nat) : (s.markClipped k).input = s.input := rfl
@[simp] theorem State.markClipped_len (s : State) (k : Nat) : (s.markClipped k).len = s.len := rfl
@[simp] theorem State.markClipped_hdrMagic (s : State) (k : Nat) : (s.markClipped k).hdrMagic = s.hdrMagic := rfl
@[simp] theorem State.markClipped_hdrWidth (s : State) (k : Nat) : (s.markClipped k).hdrWidth = s.hdrWidth := rfl
@[simp] theorem State.markClipped_hdrHeight (s : State) (k : Nat) : (s.markClipped k).hdrHeight = s.hdrHeight := rfl
@[simp] theorem State.markClipped_hdrChannels (s : State) (k : Nat) : (s.markClipped k).hdrChannels = s.hdrChannels := rfl
@[simp] theorem State.markClipped_hdrColorspace (s : State) (k : Nat) : (s.markClipped k).hdrColorspace = s.hdrColorspace := rfl
@[simp] theorem State.markClipped_n (s : State) (k : Nat) : (s.markClipped k).n = s.n := rfl
@[simp] theorem State.markClipped_pos (s : State) (k : Nat) : (s.markClipped k).pos = s.pos := rfl
@[simp] theorem State.markClipped_prev (s : State) (k : Nat) : (s.markClipped k).prev = s.prev := rfl
@[simp] theorem State.markClipped_cache (s : State) (k : Nat) : (s.markClipped k).cache = s.cache := rfl
@[simp] theorem State.markClipped_out (s : State) (k : Nat) : (s.markClipped k).out = s.out := rfl
@[simp] theorem State.markClipped_clipped (s : State) (k : Nat) : (s.markClipped k).clipped = s.clippedAfter k := rfl
@[simp] theorem State.markClipped_errCode (s : State) (k : Nat) : (s.markClipped k).errCode = s.errCode := rfl
@[simp] theorem State.markClipped_errField (s : State) (k : Nat) : (s.markClipped k).errField = s.errField := rfl
@[simp] theorem State.markClipped_errValue (s : State) (k : Nat) : (s.markClipped k).errValue = s.errValue := rfl
@[simp] theorem State.markClipped_outCapacity (s : State) (k : Nat) : (s.markClipped k).outCapacity = s.outCapacity := rfl
@[simp] theorem State.markClipped_hostCmd (s : State) (k : Nat) : (s.markClipped k).hostCmd = s.hostCmd := rfl

/-! ### `State.raise` -/

@[simp] theorem State.raise_phase (s : State) (e : ErrKind) (f : BitVec 2) (v : Word) : (s.raise e f v).phase = .error := rfl
@[simp] theorem State.raise_input (s : State) (e : ErrKind) (f : BitVec 2) (v : Word) : (s.raise e f v).input = s.input := rfl
@[simp] theorem State.raise_len (s : State) (e : ErrKind) (f : BitVec 2) (v : Word) : (s.raise e f v).len = s.len := rfl
@[simp] theorem State.raise_hdrMagic (s : State) (e : ErrKind) (f : BitVec 2) (v : Word) : (s.raise e f v).hdrMagic = s.hdrMagic := rfl
@[simp] theorem State.raise_hdrWidth (s : State) (e : ErrKind) (f : BitVec 2) (v : Word) : (s.raise e f v).hdrWidth = s.hdrWidth := rfl
@[simp] theorem State.raise_hdrHeight (s : State) (e : ErrKind) (f : BitVec 2) (v : Word) : (s.raise e f v).hdrHeight = s.hdrHeight := rfl
@[simp] theorem State.raise_hdrChannels (s : State) (e : ErrKind) (f : BitVec 2) (v : Word) : (s.raise e f v).hdrChannels = s.hdrChannels := rfl
@[simp] theorem State.raise_hdrColorspace (s : State) (e : ErrKind) (f : BitVec 2) (v : Word) : (s.raise e f v).hdrColorspace = s.hdrColorspace := rfl
@[simp] theorem State.raise_n (s : State) (e : ErrKind) (f : BitVec 2) (v : Word) : (s.raise e f v).n = s.n := rfl
@[simp] theorem State.raise_pos (s : State) (e : ErrKind) (f : BitVec 2) (v : Word) : (s.raise e f v).pos = s.pos := rfl
@[simp] theorem State.raise_prev (s : State) (e : ErrKind) (f : BitVec 2) (v : Word) : (s.raise e f v).prev = s.prev := rfl
@[simp] theorem State.raise_cache (s : State) (e : ErrKind) (f : BitVec 2) (v : Word) : (s.raise e f v).cache = s.cache := rfl
@[simp] theorem State.raise_out (s : State) (e : ErrKind) (f : BitVec 2) (v : Word) : (s.raise e f v).out = s.out := rfl
@[simp] theorem State.raise_clipped (s : State) (e : ErrKind) (f : BitVec 2) (v : Word) : (s.raise e f v).clipped = s.clipped := rfl
@[simp] theorem State.raise_errCode (s : State) (e : ErrKind) (f : BitVec 2) (v : Word) : (s.raise e f v).errCode = e := rfl
@[simp] theorem State.raise_errField (s : State) (e : ErrKind) (f : BitVec 2) (v : Word) : (s.raise e f v).errField = f := rfl
@[simp] theorem State.raise_errValue (s : State) (e : ErrKind) (f : BitVec 2) (v : Word) : (s.raise e f v).errValue = v := rfl
@[simp] theorem State.raise_outCapacity (s : State) (e : ErrKind) (f : BitVec 2) (v : Word) : (s.raise e f v).outCapacity = s.outCapacity := rfl
@[simp] theorem State.raise_hostCmd (s : State) (e : ErrKind) (f : BitVec 2) (v : Word) : (s.raise e f v).hostCmd = s.hostCmd := rfl

/-! ### `State.writeHeader` -/

@[simp] theorem State.writeHeader_phase (s : State) (m w h : Word) (ch cs : Byte) : (s.writeHeader m w h ch cs).phase = s.phase := rfl
@[simp] theorem State.writeHeader_input (s : State) (m w h : Word) (ch cs : Byte) : (s.writeHeader m w h ch cs).input = s.input := rfl
@[simp] theorem State.writeHeader_len (s : State) (m w h : Word) (ch cs : Byte) : (s.writeHeader m w h ch cs).len = s.len := rfl
@[simp] theorem State.writeHeader_hdrMagic (s : State) (m w h : Word) (ch cs : Byte) : (s.writeHeader m w h ch cs).hdrMagic = m := rfl
@[simp] theorem State.writeHeader_hdrWidth (s : State) (m w h : Word) (ch cs : Byte) : (s.writeHeader m w h ch cs).hdrWidth = w := rfl
@[simp] theorem State.writeHeader_hdrHeight (s : State) (m w h : Word) (ch cs : Byte) : (s.writeHeader m w h ch cs).hdrHeight = h := rfl
@[simp] theorem State.writeHeader_hdrChannels (s : State) (m w h : Word) (ch cs : Byte) : (s.writeHeader m w h ch cs).hdrChannels = ch := rfl
@[simp] theorem State.writeHeader_hdrColorspace (s : State) (m w h : Word) (ch cs : Byte) : (s.writeHeader m w h ch cs).hdrColorspace = cs := rfl
@[simp] theorem State.writeHeader_n (s : State) (m w h : Word) (ch cs : Byte) : (s.writeHeader m w h ch cs).n = s.n := rfl
@[simp] theorem State.writeHeader_pos (s : State) (m w h : Word) (ch cs : Byte) : (s.writeHeader m w h ch cs).pos = s.pos := rfl
@[simp] theorem State.writeHeader_prev (s : State) (m w h : Word) (ch cs : Byte) : (s.writeHeader m w h ch cs).prev = s.prev := rfl
@[simp] theorem State.writeHeader_cache (s : State) (m w h : Word) (ch cs : Byte) : (s.writeHeader m w h ch cs).cache = s.cache := rfl
@[simp] theorem State.writeHeader_out (s : State) (m w h : Word) (ch cs : Byte) : (s.writeHeader m w h ch cs).out = s.out := rfl
@[simp] theorem State.writeHeader_clipped (s : State) (m w h : Word) (ch cs : Byte) : (s.writeHeader m w h ch cs).clipped = s.clipped := rfl
@[simp] theorem State.writeHeader_errCode (s : State) (m w h : Word) (ch cs : Byte) : (s.writeHeader m w h ch cs).errCode = s.errCode := rfl
@[simp] theorem State.writeHeader_errField (s : State) (m w h : Word) (ch cs : Byte) : (s.writeHeader m w h ch cs).errField = s.errField := rfl
@[simp] theorem State.writeHeader_errValue (s : State) (m w h : Word) (ch cs : Byte) : (s.writeHeader m w h ch cs).errValue = s.errValue := rfl
@[simp] theorem State.writeHeader_outCapacity (s : State) (m w h : Word) (ch cs : Byte) : (s.writeHeader m w h ch cs).outCapacity = s.outCapacity := rfl
@[simp] theorem State.writeHeader_hostCmd (s : State) (m w h : Word) (ch cs : Byte) : (s.writeHeader m w h ch cs).hostCmd = s.hostCmd := rfl

/-! ### `State.openStream` -/

@[simp] theorem State.openStream_phase (s : State) (k : Nat) : (s.openStream k).phase = if k = 0 then .done else .decode := rfl
@[simp] theorem State.openStream_input (s : State) (k : Nat) : (s.openStream k).input = s.input := rfl
@[simp] theorem State.openStream_len (s : State) (k : Nat) : (s.openStream k).len = s.len := rfl
@[simp] theorem State.openStream_hdrMagic (s : State) (k : Nat) : (s.openStream k).hdrMagic = s.hdrMagic := rfl
@[simp] theorem State.openStream_hdrWidth (s : State) (k : Nat) : (s.openStream k).hdrWidth = s.hdrWidth := rfl
@[simp] theorem State.openStream_hdrHeight (s : State) (k : Nat) : (s.openStream k).hdrHeight = s.hdrHeight := rfl
@[simp] theorem State.openStream_hdrChannels (s : State) (k : Nat) : (s.openStream k).hdrChannels = s.hdrChannels := rfl
@[simp] theorem State.openStream_hdrColorspace (s : State) (k : Nat) : (s.openStream k).hdrColorspace = s.hdrColorspace := rfl
@[simp] theorem State.openStream_n (s : State) (k : Nat) : (s.openStream k).n = k := rfl
@[simp] theorem State.openStream_pos (s : State) (k : Nat) : (s.openStream k).pos = 14 := rfl
@[simp] theorem State.openStream_prev (s : State) (k : Nat) : (s.openStream k).prev = s.prev := rfl
@[simp] theorem State.openStream_cache (s : State) (k : Nat) : (s.openStream k).cache = s.cache := rfl
@[simp] theorem State.openStream_out (s : State) (k : Nat) : (s.openStream k).out = s.out := rfl
@[simp] theorem State.openStream_clipped (s : State) (k : Nat) : (s.openStream k).clipped = s.clipped := rfl
@[simp] theorem State.openStream_errCode (s : State) (k : Nat) : (s.openStream k).errCode = s.errCode := rfl
@[simp] theorem State.openStream_errField (s : State) (k : Nat) : (s.openStream k).errField = s.errField := rfl
@[simp] theorem State.openStream_errValue (s : State) (k : Nat) : (s.openStream k).errValue = s.errValue := rfl
@[simp] theorem State.openStream_outCapacity (s : State) (k : Nat) : (s.openStream k).outCapacity = s.outCapacity := rfl
@[simp] theorem State.openStream_hostCmd (s : State) (k : Nat) : (s.openStream k).hostCmd = s.hostCmd := rfl

/-! ### `State.issue` -/

@[simp] theorem State.issue_phase (s : State) (c : HostCmd) : (s.issue c).phase = s.phase := rfl
@[simp] theorem State.issue_input (s : State) (c : HostCmd) : (s.issue c).input = s.input := rfl
@[simp] theorem State.issue_len (s : State) (c : HostCmd) : (s.issue c).len = s.len := rfl
@[simp] theorem State.issue_hdrMagic (s : State) (c : HostCmd) : (s.issue c).hdrMagic = s.hdrMagic := rfl
@[simp] theorem State.issue_hdrWidth (s : State) (c : HostCmd) : (s.issue c).hdrWidth = s.hdrWidth := rfl
@[simp] theorem State.issue_hdrHeight (s : State) (c : HostCmd) : (s.issue c).hdrHeight = s.hdrHeight := rfl
@[simp] theorem State.issue_hdrChannels (s : State) (c : HostCmd) : (s.issue c).hdrChannels = s.hdrChannels := rfl
@[simp] theorem State.issue_hdrColorspace (s : State) (c : HostCmd) : (s.issue c).hdrColorspace = s.hdrColorspace := rfl
@[simp] theorem State.issue_n (s : State) (c : HostCmd) : (s.issue c).n = s.n := rfl
@[simp] theorem State.issue_pos (s : State) (c : HostCmd) : (s.issue c).pos = s.pos := rfl
@[simp] theorem State.issue_prev (s : State) (c : HostCmd) : (s.issue c).prev = s.prev := rfl
@[simp] theorem State.issue_cache (s : State) (c : HostCmd) : (s.issue c).cache = s.cache := rfl
@[simp] theorem State.issue_out (s : State) (c : HostCmd) : (s.issue c).out = s.out := rfl
@[simp] theorem State.issue_clipped (s : State) (c : HostCmd) : (s.issue c).clipped = s.clipped := rfl
@[simp] theorem State.issue_errCode (s : State) (c : HostCmd) : (s.issue c).errCode = s.errCode := rfl
@[simp] theorem State.issue_errField (s : State) (c : HostCmd) : (s.issue c).errField = s.errField := rfl
@[simp] theorem State.issue_errValue (s : State) (c : HostCmd) : (s.issue c).errValue = s.errValue := rfl
@[simp] theorem State.issue_outCapacity (s : State) (c : HostCmd) : (s.issue c).outCapacity = s.outCapacity := rfl
@[simp] theorem State.issue_hostCmd (s : State) (c : HostCmd) : (s.issue c).hostCmd = some c := rfl

/-! ### `State.start` -/

@[simp] theorem State.start_phase (s : State) (bytes : List Byte) : (s.start bytes).phase = .header := rfl
@[simp] theorem State.start_input (s : State) (bytes : List Byte) : (s.start bytes).input = Memory.ofBytes bytes := rfl
@[simp] theorem State.start_len (s : State) (bytes : List Byte) : (s.start bytes).len = bytes.length := rfl
@[simp] theorem State.start_hdrMagic (s : State) (bytes : List Byte) : (s.start bytes).hdrMagic = 0#32 := rfl
@[simp] theorem State.start_hdrWidth (s : State) (bytes : List Byte) : (s.start bytes).hdrWidth = 0#32 := rfl
@[simp] theorem State.start_hdrHeight (s : State) (bytes : List Byte) : (s.start bytes).hdrHeight = 0#32 := rfl
@[simp] theorem State.start_hdrChannels (s : State) (bytes : List Byte) : (s.start bytes).hdrChannels = 0#8 := rfl
@[simp] theorem State.start_hdrColorspace (s : State) (bytes : List Byte) : (s.start bytes).hdrColorspace = 0#8 := rfl
@[simp] theorem State.start_n (s : State) (bytes : List Byte) : (s.start bytes).n = 0 := rfl
@[simp] theorem State.start_pos (s : State) (bytes : List Byte) : (s.start bytes).pos = 0 := rfl
@[simp] theorem State.start_prev (s : State) (bytes : List Byte) : (s.start bytes).prev = Config.startPixel := rfl
@[simp] theorem State.start_cache (s : State) (bytes : List Byte) : (s.start bytes).cache = Vector.replicate 64 Config.cacheInit := rfl
@[simp] theorem State.start_out (s : State) (bytes : List Byte) : (s.start bytes).out = [] := rfl
@[simp] theorem State.start_clipped (s : State) (bytes : List Byte) : (s.start bytes).clipped = false := rfl
@[simp] theorem State.start_errCode (s : State) (bytes : List Byte) : (s.start bytes).errCode = .noError := rfl
@[simp] theorem State.start_errField (s : State) (bytes : List Byte) : (s.start bytes).errField = 0#2 := rfl
@[simp] theorem State.start_errValue (s : State) (bytes : List Byte) : (s.start bytes).errValue = 0#32 := rfl
@[simp] theorem State.start_outCapacity (s : State) (bytes : List Byte) : (s.start bytes).outCapacity = s.outCapacity := rfl
@[simp] theorem State.start_hostCmd (s : State) (bytes : List Byte) : (s.start bytes).hostCmd = none := rfl

/-! ### `State.hostReset` -/

@[simp] theorem State.hostReset_phase (s : State) : s.hostReset.phase = .idle := rfl
@[simp] theorem State.hostReset_input (s : State) : s.hostReset.input = s.input := rfl
@[simp] theorem State.hostReset_len (s : State) : s.hostReset.len = s.len := rfl
@[simp] theorem State.hostReset_hdrMagic (s : State) : s.hostReset.hdrMagic = 0#32 := rfl
@[simp] theorem State.hostReset_hdrWidth (s : State) : s.hostReset.hdrWidth = 0#32 := rfl
@[simp] theorem State.hostReset_hdrHeight (s : State) : s.hostReset.hdrHeight = 0#32 := rfl
@[simp] theorem State.hostReset_hdrChannels (s : State) : s.hostReset.hdrChannels = 0#8 := rfl
@[simp] theorem State.hostReset_hdrColorspace (s : State) : s.hostReset.hdrColorspace = 0#8 := rfl
@[simp] theorem State.hostReset_n (s : State) : s.hostReset.n = 0 := rfl
@[simp] theorem State.hostReset_pos (s : State) : s.hostReset.pos = 0 := rfl
@[simp] theorem State.hostReset_prev (s : State) : s.hostReset.prev = Config.startPixel := rfl
@[simp] theorem State.hostReset_cache (s : State) : s.hostReset.cache = Vector.replicate 64 Config.cacheInit := rfl
@[simp] theorem State.hostReset_out (s : State) : s.hostReset.out = [] := rfl
@[simp] theorem State.hostReset_clipped (s : State) : s.hostReset.clipped = false := rfl
@[simp] theorem State.hostReset_errCode (s : State) : s.hostReset.errCode = .noError := rfl
@[simp] theorem State.hostReset_errField (s : State) : s.hostReset.errField = 0#2 := rfl
@[simp] theorem State.hostReset_errValue (s : State) : s.hostReset.errValue = 0#32 := rfl
@[simp] theorem State.hostReset_outCapacity (s : State) : s.hostReset.outCapacity = s.outCapacity := rfl
@[simp] theorem State.hostReset_hostCmd (s : State) : s.hostReset.hostCmd = none := rfl

end Sys2Proof.Machine
end

