-- ==== Sys2Proof/Laws/Memory.lean ====
section
/-! SUPPORT. The memory of `IN`: read after write, and that every operation keeps the canonical form. -/

namespace Sys2Proof.Machine

/-! ### Reading -/

/-- An address below every listed one reads as zero. -/
theorem Memory.read_of_lt {m : Memory} {a : Nat} (h : ∀ x ∈ m, a < x.1) : Memory.read m a = 0#8 := by
  induction m with
  | nil => rfl
  | cons c m ih =>
    have hc := h c (by simp)
    rw [Memory.read, if_neg (by omega)]
    exact ih fun x hx => h x (by simp [hx])

theorem Memory.wf_tail {c : Host.Cell} {m : Memory} (h : Memory.wf (c :: m)) : Memory.wf m :=
  ⟨(List.pairwise_cons.1 h.1).2, fun x hx => h.2 x (by simp [hx])⟩

theorem Memory.head_lt {c : Host.Cell} {m : Memory} (h : Memory.wf (c :: m)) : ∀ x ∈ m, c.1 < x.1 :=
  (List.pairwise_cons.1 h.1).1

theorem Memory.read_put {m : Memory} {a : Nat} {b : Byte} (h : ∀ x ∈ m, a < x.1) (x : Nat) :
    Memory.read (Memory.put a b m) x = if x = a then b else Memory.read m x := by
  unfold Memory.put
  split
  · next hb =>
    split
    · next hx => rw [hx, hb, Memory.read_of_lt h]
    · rfl
  · rfl

/-- Read after write: the byte written at its address, every other address as before. -/
theorem Memory.read_write {m : Memory} (h : Memory.wf m) (a x : Nat) (b : Byte) :
    Memory.read (Memory.write m a b) x = if x = a then b else Memory.read m x := by
  induction m with
  | nil => exact Memory.read_put (by simp) x
  | cons c m ih =>
    have hlt := Memory.head_lt h
    unfold Memory.write
    split
    · next hac =>
      refine Memory.read_put (fun y hy => ?_) x
      rcases List.mem_cons.1 hy with rfl | hy
      · exact hac
      · exact hac.trans (hlt y hy)
    · split
      · next hac =>
        subst hac
        rw [Memory.read_put hlt, Memory.read]
        split <;> rfl
      · next hac =>
        rw [Memory.read, ih (Memory.wf_tail h), Memory.read]
        split
        · next hxc => rw [if_neg (by omega)]
        · rfl

/-! ### The canonical form -/

theorem Memory.wf_nil : Memory.wf [] := by simp [Memory.wf]

theorem Memory.put_wf {m : Memory} (h : Memory.wf m) {a : Nat} (b : Byte) (ha : ∀ x ∈ m, a < x.1) :
    Memory.wf (Memory.put a b m) := by
  unfold Memory.put
  split
  · exact h
  · next hb =>
    refine ⟨List.pairwise_cons.2 ⟨ha, h.1⟩, fun x hx => ?_⟩
    rcases List.mem_cons.1 hx with rfl | hx
    · exact hb
    · exact h.2 x hx

theorem Memory.mem_put {m : Memory} {a : Nat} {b : Byte} {x : Host.Cell} (h : x ∈ Memory.put a b m) :
    x.1 = a ∨ x ∈ m := by
  unfold Memory.put at h
  split at h
  · exact .inr h
  · rcases List.mem_cons.1 h with rfl | h
    · exact .inl rfl
    · exact .inr h

theorem Memory.mem_write {m : Memory} {a : Nat} {b : Byte} {x : Host.Cell} (h : x ∈ Memory.write m a b) :
    x.1 = a ∨ x ∈ m := by
  induction m with
  | nil => exact Memory.mem_put h
  | cons c m ih =>
    unfold Memory.write at h
    split at h
    · exact Memory.mem_put h
    · split at h
      · exact (Memory.mem_put h).imp_right (List.mem_cons_of_mem _)
      · rcases List.mem_cons.1 h with rfl | h
        · exact .inr (by simp)
        · exact (ih h).imp_right (List.mem_cons_of_mem _)

/-- A write keeps the canonical form. -/
theorem Memory.write_wf {m : Memory} (h : Memory.wf m) (a : Nat) (b : Byte) : Memory.wf (Memory.write m a b) := by
  induction m with
  | nil => exact Memory.put_wf h b (by simp)
  | cons c m ih =>
    have hlt := Memory.head_lt h
    unfold Memory.write
    split
    · next hac =>
      refine Memory.put_wf h b fun y hy => ?_
      rcases List.mem_cons.1 hy with rfl | hy
      · exact hac
      · exact hac.trans (hlt y hy)
    · split
      · next hac => exact Memory.put_wf (Memory.wf_tail h) b fun y hy => hac ▸ hlt y hy
      · next hac =>
        have hw := ih (Memory.wf_tail h)
        refine ⟨List.pairwise_cons.2 ⟨fun y hy => ?_, hw.1⟩, fun y hy => ?_⟩
        · rcases Memory.mem_write hy with hya | hy
          · omega
          · exact hlt y hy
        · rcases List.mem_cons.1 hy with rfl | hy
          · exact h.2 _ (by simp)
          · exact hw.2 y hy

/-! ### Byte strings -/

theorem Memory.writeBytes_wf {m : Memory} (h : Memory.wf m) (a : Nat) (bs : List Byte) :
    Memory.wf (Memory.writeBytes m a bs) := by
  induction bs generalizing m a with
  | nil => exact h
  | cons b bs ih => exact ih (Memory.write_wf h a b) (a + 1)

theorem Memory.read_writeBytes {m : Memory} (h : Memory.wf m) (a x : Nat) (bs : List Byte) :
    Memory.read (Memory.writeBytes m a bs) x =
      if a ≤ x then (bs[x - a]?).getD (Memory.read m x) else Memory.read m x := by
  induction bs generalizing m a with
  | nil => simp [Memory.writeBytes]
  | cons b bs ih =>
    rw [Memory.writeBytes, ih (Memory.write_wf h a b), Memory.read_write h]
    rcases lt_trichotomy x a with hx | rfl | hx
    · simp [show ¬ a + 1 ≤ x by omega, show ¬ a ≤ x by omega, show x ≠ a by omega]
    · simp
    · obtain ⟨k, rfl⟩ : ∃ k, x = a + 1 + k := ⟨x - (a + 1), by omega⟩
      simp [show a + 1 + k ≠ a by omega, show a + 1 + k - a = k + 1 by omega, show a ≤ a + 1 + k by omega]

theorem Memory.mem_writeBytes {m : Memory} {a : Nat} {bs : List Byte} {x : Host.Cell}
    (h : x ∈ Memory.writeBytes m a bs) : (a ≤ x.1 ∧ x.1 < a + bs.length) ∨ x ∈ m := by
  induction bs generalizing m a with
  | nil => exact .inr h
  | cons b bs ih =>
    rw [List.length_cons]
    rcases ih h with h | h
    · exact .inl (by omega)
    · rcases Memory.mem_write h with h | h
      · exact .inl (by omega)
      · exact .inr h

theorem Memory.ofBytes_wf (bs : List Byte) : Memory.wf (Memory.ofBytes bs) := Memory.writeBytes_wf Memory.wf_nil 0 bs

theorem Memory.ofBytes_below (bs : List Byte) : ∀ x ∈ Memory.ofBytes bs, x.1 < bs.length := fun x hx => by
  rcases Memory.mem_writeBytes hx with h | h
  · omega
  · simp at h

theorem Memory.read_ofBytes (bs : List Byte) (x : Nat) : Memory.read (Memory.ofBytes bs) x = (bs[x]?).getD 0#8 := by
  rw [Memory.ofBytes, Memory.read_writeBytes Memory.wf_nil]
  simp [Memory.read]

@[simp] theorem Memory.readBytes_length (m : Memory) (a k : Nat) : (Memory.readBytes m a k).length = k := by
  induction k generalizing a with
  | zero => rfl
  | succ k ih => simp [Memory.readBytes, ih]

/-- Reading a string in two parts. -/
theorem Memory.readBytes_add (m : Memory) (a j k : Nat) :
    Memory.readBytes m a (j + k) = Memory.readBytes m a j ++ Memory.readBytes m (a + j) k := by
  induction j generalizing a with
  | zero => simp [Memory.readBytes]
  | succ j ih =>
    rw [show j + 1 + k = (j + k) + 1 by omega, Memory.readBytes, Memory.readBytes, ih]
    simp [show a + 1 + j = a + (j + 1) by omega]

/-- Memories that read alike on a range give the same bytes of it. -/
theorem Memory.readBytes_congr {m m' : Memory} {a k : Nat}
    (h : ∀ x, a ≤ x → x < a + k → Memory.read m x = Memory.read m' x) :
    Memory.readBytes m a k = Memory.readBytes m' a k := by
  induction k generalizing a with
  | zero => rfl
  | succ k ih =>
    rw [Memory.readBytes, Memory.readBytes, h a (by omega) (by omega),
      ih fun x h1 h2 => h x (by omega) (by omega)]

end Sys2Proof.Machine
end

