-- ==== Sys2Proof/Laws/Ops.lean ====
section
/-! SUPPORT. The operations over registers, the cache, bytes of `IN` and the hash: what each can do, said once. -/

namespace Sys2Proof.Machine

/-! ### The seen cache -/

theorem State.cacheRead_congr {s t : State} (h : t.cache = s.cache) (i : BitVec 6) : t.cacheRead i = s.cacheRead i := by
  simp only [State.cacheRead, h]

/-- The slot written reads as the pixel written, every other slot as before. -/
theorem State.cacheRead_cacheWrite (s : State) (i j : BitVec 6) (p : Pixel) :
    (s.cacheWrite i p).cacheRead j = if j = i then p else s.cacheRead j := by
  simp only [State.cacheRead, State.cacheWrite, Vector.getElem_set, ← BitVec.toNat_inj, eq_comm]

theorem State.cacheRead_replicate {s : State} {p : Pixel} (h : s.cache = Vector.replicate 64 p) (i : BitVec 6) :
    s.cacheRead i = p := by
  simp only [State.cacheRead, h, Vector.getElem_replicate]

/-! ### The hash -/

theorem pixelHash_toNat (p : Pixel) :
    (pixelHash p).toNat = (3 * p.r.toNat + 5 * p.g.toNat + 7 * p.b.toNat + 11 * p.a.toNat) % 64 := by
  simp [pixelHash]

theorem eq_pixelHash_iff (i : BitVec 6) (p : Pixel) :
    i = pixelHash p ↔ i.toNat = (3 * p.r.toNat + 5 * p.g.toNat + 7 * p.b.toNat + 11 * p.a.toNat) % 64 := by
  rw [← BitVec.toNat_inj, pixelHash_toNat]

/-! ### Wrapping arithmetic -/

theorem wrap8_toNat (x : Int) : ((wrap8 x).toNat : Int) = x % 256 := by
  simp [wrap8, BitVec.toNat_ofInt]; omega

/-- One lane, on integers. -/
theorem addLane_toNat (c : Byte) (d : Int) : ((addLane c d).toNat : Int) = ((c.toNat : Int) + d) % 256 :=
  wrap8_toNat _

/-! ### Bytes of `IN` -/

theorem State.inByte_of_lt {s : State} {i : Nat} (h : i < s.len) : s.inByte i = some (Memory.read s.input i) := if_pos h

theorem State.inByte_eq_some {s : State} {i : Nat} {b : Byte} :
    s.inByte i = some b ↔ i < s.len ∧ Memory.read s.input i = b := by
  unfold State.inByte; split <;> simp_all

theorem State.inByte_congr {s t : State} (hi : t.input = s.input) (hl : t.len = s.len) (i : Nat) :
    t.inByte i = s.inByte i := by
  simp only [State.inByte, hi, hl]

theorem State.memRead_of_le {s : State} {a k : Nat} (h : a + k ≤ s.len) :
    s.memRead a k = some (Memory.readBytes s.input a k) := if_pos h

/-! ### Outcomes -/

@[simp] theorem onNext_next (f : State → State) (s : State) : onNext f (.next s) = .next (f s) := rfl
@[simp] theorem onNext_fault (f : State → State) (r : Fault) : onNext f (.fault r) = .fault r := rfl
@[simp] theorem onNext_refused (f : State → State) (r : Refusal) : onNext f (.refused r) = .refused r := rfl

end Sys2Proof.Machine
end

