-- ==== Sys2Proof/Laws/Chunk.lean ====
section
/-! SUPPORT. The end of a chunk step: what `completeChunk` writes, field by field, and its effect said once. -/

namespace Sys2Proof.Machine

/-! ### `State.terminate` -/

/-- Termination writes the phase alone. -/
theorem State.terminate_eq (s : State) : s.terminate = { s with phase := if s.count = s.n then .done else s.phase } := by
  unfold State.terminate
  split <;> simp

/-! ### `State.completeChunk` -/

@[simp] theorem State.completeChunk_input (s : State) (p : Pixel) (k n : Nat) :
    (s.completeChunk p k n).input = s.input := by simp [State.completeChunk, State.terminate_eq, State.commit]
@[simp] theorem State.completeChunk_len (s : State) (p : Pixel) (k n : Nat) :
    (s.completeChunk p k n).len = s.len := by simp [State.completeChunk, State.terminate_eq, State.commit]
@[simp] theorem State.completeChunk_hdrMagic (s : State) (p : Pixel) (k n : Nat) :
    (s.completeChunk p k n).hdrMagic = s.hdrMagic := by simp [State.completeChunk, State.terminate_eq, State.commit]
@[simp] theorem State.completeChunk_hdrWidth (s : State) (p : Pixel) (k n : Nat) :
    (s.completeChunk p k n).hdrWidth = s.hdrWidth := by simp [State.completeChunk, State.terminate_eq, State.commit]
@[simp] theorem State.completeChunk_hdrHeight (s : State) (p : Pixel) (k n : Nat) :
    (s.completeChunk p k n).hdrHeight = s.hdrHeight := by simp [State.completeChunk, State.terminate_eq, State.commit]
@[simp] theorem State.completeChunk_hdrChannels (s : State) (p : Pixel) (k n : Nat) :
    (s.completeChunk p k n).hdrChannels = s.hdrChannels := by simp [State.completeChunk, State.terminate_eq, State.commit]
@[simp] theorem State.completeChunk_hdrColorspace (s : State) (p : Pixel) (k n : Nat) :
    (s.completeChunk p k n).hdrColorspace = s.hdrColorspace := by simp [State.completeChunk, State.terminate_eq, State.commit]
@[simp] theorem State.completeChunk_n (s : State) (p : Pixel) (k n : Nat) :
    (s.completeChunk p k n).n = s.n := by simp [State.completeChunk, State.terminate_eq, State.commit]
@[simp] theorem State.completeChunk_errCode (s : State) (p : Pixel) (k n : Nat) :
    (s.completeChunk p k n).errCode = s.errCode := by simp [State.completeChunk, State.terminate_eq, State.commit]
@[simp] theorem State.completeChunk_errField (s : State) (p : Pixel) (k n : Nat) :
    (s.completeChunk p k n).errField = s.errField := by simp [State.completeChunk, State.terminate_eq, State.commit]
@[simp] theorem State.completeChunk_errValue (s : State) (p : Pixel) (k n : Nat) :
    (s.completeChunk p k n).errValue = s.errValue := by simp [State.completeChunk, State.terminate_eq, State.commit]
@[simp] theorem State.completeChunk_outCapacity (s : State) (p : Pixel) (k n : Nat) :
    (s.completeChunk p k n).outCapacity = s.outCapacity := by simp [State.completeChunk, State.terminate_eq, State.commit]
@[simp] theorem State.completeChunk_hostCmd (s : State) (p : Pixel) (k n : Nat) :
    (s.completeChunk p k n).hostCmd = s.hostCmd := by simp [State.completeChunk, State.terminate_eq, State.commit]
@[simp] theorem State.completeChunk_out (s : State) (p : Pixel) (k n : Nat) :
    (s.completeChunk p k n).out = s.out ++ List.replicate (s.kept k) p := by
  simp [State.completeChunk, State.terminate_eq, State.commit]
@[simp] theorem State.completeChunk_prev (s : State) (p : Pixel) (k n : Nat) : (s.completeChunk p k n).prev = p := by
  simp [State.completeChunk, State.terminate_eq, State.commit]
@[simp] theorem State.completeChunk_pos (s : State) (p : Pixel) (k n : Nat) : (s.completeChunk p k n).pos = s.pos + n := by
  simp [State.completeChunk, State.terminate_eq, State.commit]
@[simp] theorem State.completeChunk_cache (s : State) (p : Pixel) (k n : Nat) :
    (s.completeChunk p k n).cache = s.cache.set (pixelHash p).toNat p (pixelHash p).isLt := by
  simp [State.completeChunk, State.terminate_eq, State.commit]
@[simp] theorem State.completeChunk_clipped (s : State) (p : Pixel) (k n : Nat) :
    (s.completeChunk p k n).clipped = s.clippedAfter k := by
  simp [State.completeChunk, State.terminate_eq, State.commit]
@[simp] theorem State.completeChunk_phase (s : State) (p : Pixel) (k n : Nat) :
    (s.completeChunk p k n).phase = if s.out.length + s.kept k = s.n then .done else s.phase := by
  simp [State.completeChunk, State.terminate_eq, State.commit, State.count]

theorem State.completeChunk_count (s : State) (p : Pixel) (k n : Nat) :
    (s.completeChunk p k n).count = s.count + s.kept k := by
  simp [State.count]

theorem State.completeChunk_cacheRead (s : State) (p : Pixel) (k n : Nat) (i : BitVec 6) :
    (s.completeChunk p k n).cacheRead i = if i = pixelHash p then p else s.cacheRead i :=
  (State.cacheRead_congr (t := s.completeChunk p k n) (s := s.cacheWrite (pixelHash p) p) (by simp) i).trans
    (s.cacheRead_cacheWrite _ _ _)

/-- Everything the end of a chunk step does. -/
theorem State.completeChunk_effect (s : State) (p : Pixel) (k n : Nat) :
    ChunkEffect s (s.completeChunk p k n) p (s.kept k) n where
  out := by simp
  prev := by simp
  cache i := by simp only [State.completeChunk_cacheRead, eq_pixelHash_iff]
  pos := by simp
  phase := by simp
  frame := by constructor <;> first | (intro a; exact State.inByte_congr (by simp) (by simp) a) | simp

/-! ### How many pixels are kept -/

theorem State.kept_le_needed (s : State) (k : Nat) : s.kept k ≤ s.n - s.count := Nat.min_le_right _ _

theorem State.kept_le (s : State) (k : Nat) : s.kept k ≤ k := Nat.min_le_left _ _

/-- A chunk of one pixel keeps it while pixels are needed, and does not touch `CLIPPED`. -/
theorem State.kept_one {s : State} (h : s.count < s.n) : s.kept 1 = 1 := by
  simp only [State.kept, State.needed]; omega

theorem State.clippedAfter_one {s : State} (h : s.count < s.n) : s.clippedAfter 1 = s.clipped := by
  simp [State.clippedAfter, State.kept_one h]

end Sys2Proof.Machine
end

