-- ==== Sys2Proof/Laws/Decode.lean ====
section
/-! SUPPORT. Decoding and encoding: lengths, and that bytes of the length a lead byte asks for decode. -/

namespace Sys2Proof

/-! ### Big-endian words -/

/-- A big-endian word as a number (20_memory.md R51). -/
theorem be32_toNat (b0 b1 b2 b3 : Byte) :
    (be32 b0 b1 b2 b3).toNat = b0.toNat * 2 ^ 24 + b1.toNat * 2 ^ 16 + b2.toNat * 2 ^ 8 + b3.toNat := by
  have h1 := b1.isLt
  have h2 := b2.isLt
  have h3 := b3.isLt
  simp only [be32, BitVec.toNat_append]
  rw [← Nat.shiftLeft_add_eq_or_of_lt h3, ← Nat.shiftLeft_add_eq_or_of_lt h2, ← Nat.shiftLeft_add_eq_or_of_lt h1]
  simp only [Nat.shiftLeft_eq]
  omega

theorem be32_be32Bytes (w : Word) :
    be32 (w.extractLsb' 24 8) (w.extractLsb' 16 8) (w.extractLsb' 8 8) (w.extractLsb' 0 8) = w := by
  have h := w.isLt
  apply BitVec.eq_of_toNat_eq
  simp only [be32_toNat, BitVec.extractLsb'_toNat, Nat.shiftRight_eq_div_pow]
  omega

theorem be32Bytes_be32 (b0 b1 b2 b3 : Byte) : be32Bytes (be32 b0 b1 b2 b3) = [b0, b1, b2, b3] := by
  have h0 := b0.isLt
  have h1 := b1.isLt
  have h2 := b2.isLt
  have h3 := b3.isLt
  simp only [be32Bytes, List.cons.injEq, and_true]
  refine ⟨?_, ?_, ?_, ?_⟩ <;> apply BitVec.eq_of_toNat_eq <;>
    simp only [be32_toNat, BitVec.extractLsb'_toNat, Nat.shiftRight_eq_div_pow] <;> omega

/-! ### Lengths -/

/-- A chunk's length by its kind (R73 beside R74). -/
theorem chunkLen_eq (b0 : Byte) : chunkLen b0 =
    match dispatch b0 with
    | .rgb => 4
    | .rgba => 5
    | .index => 1
    | .diff => 1
    | .luma => 2
    | .run => 1 := by
  revert b0; decide

theorem chunkLen_pos (b0 : Byte) : 1 ≤ chunkLen b0 := by
  rw [chunkLen_eq]; split <;> omega

theorem chunkLen_le_five (b0 : Byte) : chunkLen b0 ≤ 5 := by
  rw [chunkLen_eq]; split <;> omega

/-- A RUN's field is at most 61, its two upper neighbours being RGB and RGBA (R77). -/
theorem run_field_lt {b0 : Byte} (h : dispatch b0 = .run) : (b0.extractLsb' 0 6).toNat < Config.runMax := by
  revert b0; decide

/-- A LUMA lead byte announces two bytes, whatever its field (R73). -/
theorem chunkLen_luma (dg : BitVec 6) : chunkLen (0b10#2 ++ dg) = 2 := by
  revert dg; decide

/-- A chunk that decodes: a well-formed instruction of a chunk, of the length its lead byte gives. -/
theorem decodeChunk_ok {bs rest : List Byte} {i : Instr} (h : decodeChunk bs = .ok (i, rest)) :
    ∃ b0 tl, bs = b0 :: tl ∧ i.place = .chunk ∧ i.wellFormed = true ∧ i.length = chunkLen b0 ∧
      rest = bs.drop (chunkLen b0) ∧ chunkLen b0 ≤ bs.length := by
  match bs, h with
  | b0 :: tl, h =>
    refine ⟨b0, tl, rfl, ?_⟩
    rw [chunkLen_eq]
    cases hk : dispatch b0 <;> simp only [decodeChunk, hk] at h ⊢
    case run =>
      cases h
      simpa [Instr.place, Instr.wellFormed, Instr.length] using run_field_lt hk
    case index => cases h; simp [Instr.place, Instr.wellFormed, Instr.length]
    case diff => cases h; simp [Instr.place, Instr.wellFormed, Instr.length]
    all_goals
      split at h
      · cases h; simp [Instr.place, Instr.wellFormed, Instr.length]
      · cases h

/-- Bytes at least as long as the lead byte asks for decode, and those after them do not matter. -/
theorem decodeChunk_of_le {b0 : Byte} {tl : List Byte} (h : chunkLen b0 ≤ (b0 :: tl).length) :
    ∃ i, ∀ more, decodeChunk (b0 :: tl ++ more) = .ok (i, (b0 :: tl).drop (chunkLen b0) ++ more) := by
  rw [chunkLen_eq] at h ⊢
  simp only [List.cons_append, decodeChunk]
  cases hk : dispatch b0 <;> simp only [hk] at h ⊢
  case rgb =>
    match tl, h with
    | b1 :: b2 :: b3 :: tl, _ => exact ⟨_, fun _ => by simp; rfl⟩
  case rgba =>
    match tl, h with
    | b1 :: b2 :: b3 :: b4 :: tl, _ => exact ⟨_, fun _ => by simp; rfl⟩
  case luma =>
    match tl, h with
    | b1 :: tl, _ => exact ⟨_, fun _ => by simp; rfl⟩
  all_goals exact ⟨_, fun _ => by simp; rfl⟩

/-- Fourteen bytes and more decode as a header. -/
theorem decodeHeader_of_le {bs : List Byte} (h : 14 ≤ bs.length) :
    ∃ m w h ch cs, ∀ more, decodeHeader (bs ++ more) = .ok (.header m w h ch cs, bs.drop 14 ++ more) := by
  match bs, h with
  | _ :: _ :: _ :: _ :: _ :: _ :: _ :: _ :: _ :: _ :: _ :: _ :: _ :: _ :: rest, _ =>
    exact ⟨_, _, _, _, _, fun _ => rfl⟩

theorem decodeHeader_ok {bs rest : List Byte} {i : Instr} (h : decodeHeader bs = .ok (i, rest)) :
    i.place = .header ∧ i.wellFormed = true ∧ 14 ≤ bs.length ∧ rest = bs.drop 14 := by
  unfold decodeHeader at h
  split at h
  · cases h; simp [Instr.place, Instr.wellFormed]
  · cases h

end Sys2Proof
end

