-- ==== Sys2Proof/Laws/Exec.lean ====
section
/-! SUPPORT. What `exec` answers, said once: every chunk ends in `completeChunk` of the pixel it produces; the header step
is one of four cases. -/

namespace Sys2Proof.Machine

/-- The pixel a chunk produces (41_chunk_step.md R120's `Produce`); PREV for the header, which produces none. -/
def produced (s : State) : Instr → Pixel
  | .header .. => s.prev
  | .rgb r g b => ⟨r, g, b, s.prev.a⟩
  | .rgba r g b a => ⟨r, g, b, a⟩
  | .index idx => s.cacheRead idx
  | .diff dr dg db => addDeltas s.prev (diffDelta dr) (diffDelta dg) (diffDelta db)
  | .luma dg x y => addDeltas s.prev (lumaSide dg x) (lumaGreen dg) (lumaSide dg y)
  | .run _ => s.prev

/-- The repeat count of a chunk (R124). -/
def repeats : Instr → Nat
  | .header .. => 0
  | .rgb .. => 1
  | .rgba .. => 1
  | .index .. => 1
  | .diff .. => 1
  | .luma .. => 1
  | .run n => runLength n

/-- Every chunk runs to its end. -/
theorem exec_chunk {i : Instr} (h : i.place = .chunk) (s : State) :
    exec i s = .next (s.completeChunk (produced s i) (repeats i) i.length) := by
  cases i <;> first | rfl | simp [Instr.place] at h

theorem repeats_pos {i : Instr} (h : i.place = .chunk) : 1 ≤ repeats i := by
  cases i <;> simp [repeats, runLength, Instr.place] at h ⊢

theorem repeats_le {i : Instr} (h : i.wellFormed = true) : repeats i ≤ 62 := by
  cases i with
  | run n => exact of_decide_eq_true h
  | _ => simp [repeats]

/-- A pixel produced depends on PREV and the cache alone. -/
theorem produced_congr {s s' : State} (hp : s.prev = s'.prev) (hc : s.cache = s'.cache) (i : Instr) :
    produced s i = produced s' i := by
  cases i <;> simp [produced, hp, State.cacheRead_congr hc]

/-! ### The header step -/

/-- Validation passes exactly on the legal fields (R102). -/
theorem invalidField_eq_none (m : Word) (ch cs : Byte) :
    invalidField m ch cs = none ↔ m = 0x716F6966#32 ∧ (ch = 3#8 ∨ ch = 4#8) ∧ (cs = 0#8 ∨ cs = 1#8) := by
  unfold invalidField Config.magic
  split
  · next hm => simp [hm]
  · next hm =>
    split
    · next hch => simp_all
    · next hch =>
      split
      · next hcs => simp_all
      · next hcs => simp at hm hch hcs; simp only [true_iff]; exact ⟨hm, by tauto, by tauto⟩

/-- What validation reports: the first failing check (R102). -/
theorem invalidField_eq_some {m : Word} {ch cs : Byte} {f : BitVec 2} {v : Word} (h : invalidField m ch cs = some (f, v)) :
    (f = 0#2 ∧ v = m ∧ m ≠ 0x716F6966#32) ∨
    (f = 1#2 ∧ v = ch.setWidth 32 ∧ m = 0x716F6966#32 ∧ ch ≠ 3#8 ∧ ch ≠ 4#8) ∨
    (f = 2#2 ∧ v = cs.setWidth 32 ∧ m = 0x716F6966#32 ∧ (ch = 3#8 ∨ ch = 4#8) ∧ cs ≠ 0#8 ∧ cs ≠ 1#8) := by
  unfold invalidField Config.magic at h
  split at h
  · next hm => cases h; exact .inl ⟨rfl, rfl, hm⟩
  · next hm =>
    have hm := not_ne_iff.1 hm
    split at h
    · next hch => cases h; exact .inr (.inl ⟨rfl, rfl, hm, hch⟩)
    · next hch =>
      split at h
      · next hcs => cases h; exact .inr (.inr ⟨rfl, rfl, hm, by tauto, hcs⟩)
      · cases h

theorem commitTotal_opens {s : State} {k : Nat} (h : k ≤ s.outCapacity) : commitTotal s k = .next (s.openStream k) := by
  unfold commitTotal
  split
  · next h0 => rw [h0]
  · rw [if_neg (by omega)]

theorem commitTotal_refused {s : State} {k : Nat} (h : s.outCapacity < k) :
    commitTotal s k = .refused .outCapacityExceeded := by
  rw [commitTotal, if_neg (by omega), if_pos h]

/-- A legal header within the capacity opens the stream. -/
theorem exec_header_opens {m w h : Word} {ch cs : Byte} {s : State} (hv : invalidField m ch cs = none)
    (hc : w.toNat * h.toNat ≤ s.outCapacity) :
    exec (.header m w h ch cs) s = .next ((s.writeHeader m w h ch cs).openStream (w.toNat * h.toNat)) := by
  simp only [exec, execHeader, hv, commitHeader, State.writeHeader_hdrWidth, State.writeHeader_hdrHeight]
  exact commitTotal_opens hc

/-- A legal header above the capacity is refused. -/
theorem exec_header_refused {m w h : Word} {ch cs : Byte} {s : State} (hv : invalidField m ch cs = none)
    (hc : s.outCapacity < w.toNat * h.toNat) : exec (.header m w h ch cs) s = .refused .outCapacityExceeded := by
  simp only [exec, execHeader, hv, commitHeader, State.writeHeader_hdrWidth, State.writeHeader_hdrHeight]
  exact commitTotal_refused hc

/-- An illegal header raises its error. -/
theorem exec_header_raises {m w h : Word} {ch cs : Byte} {s : State} {f : BitVec 2} {v : Word}
    (hv : invalidField m ch cs = some (f, v)) :
    exec (.header m w h ch cs) s = .next ((s.writeHeader m w h ch cs).raise .invalidHeaderField f v) := by
  simp only [exec, execHeader, hv]

/-- Everything the header step's meaning can answer. -/
theorem exec_header_cases (m w h : Word) (ch cs : Byte) (s : State) :
    (∃ f v, invalidField m ch cs = some (f, v) ∧
      exec (.header m w h ch cs) s = .next ((s.writeHeader m w h ch cs).raise .invalidHeaderField f v)) ∨
    (invalidField m ch cs = none ∧ w.toNat * h.toNat ≤ s.outCapacity ∧
      exec (.header m w h ch cs) s = .next ((s.writeHeader m w h ch cs).openStream (w.toNat * h.toNat))) ∨
    (invalidField m ch cs = none ∧ s.outCapacity < w.toNat * h.toNat ∧
      exec (.header m w h ch cs) s = .refused .outCapacityExceeded) := by
  rcases hv : invalidField m ch cs with _ | ⟨f, v⟩
  · rcases Nat.lt_or_ge s.outCapacity (w.toNat * h.toNat) with hc | hc
    · exact .inr (.inr ⟨rfl, hc, exec_header_refused hv hc⟩)
    · exact .inr (.inl ⟨rfl, hc, exec_header_opens hv hc⟩)
  · exact .inl ⟨f, v, rfl, exec_header_raises hv⟩

end Sys2Proof.Machine
end

