-- ==== Sys2Proof/Laws/Fetch.lean ====
section
/-! SUPPORT. Fetching: everything it can give, and that it reads `IN` below `L` only. -/

namespace Sys2Proof.Machine

/-- A chunk step's fetch whose chunk lies within `IN` runs the instruction decoded from exactly its bytes. -/
theorem fetchFrom_of_le {s : State} (h : s.pos + chunkLen (Memory.read s.input s.pos) ≤ s.len) :
    ∃ i, fetchFrom s (Memory.read s.input s.pos) = .runs i ∧ i.place = .chunk ∧ i.wellFormed = true ∧
      i.length = chunkLen (Memory.read s.input s.pos) ∧
      ∀ more, decodeChunk (Memory.readBytes s.input s.pos (chunkLen (Memory.read s.input s.pos)) ++ more) =
        .ok (i, more) := by
  have hb : Memory.readBytes s.input s.pos (chunkLen (Memory.read s.input s.pos)) = Memory.read s.input s.pos ::
      Memory.readBytes s.input (s.pos + 1) (chunkLen (Memory.read s.input s.pos) - 1) := by
    conv => lhs; rw [show chunkLen (Memory.read s.input s.pos) = chunkLen (Memory.read s.input s.pos) - 1 + 1 by
      have := chunkLen_pos (Memory.read s.input s.pos); omega]
    rfl
  have hl := Memory.readBytes_length s.input s.pos (chunkLen (Memory.read s.input s.pos))
  obtain ⟨i, hi⟩ := decodeChunk_of_le (b0 := Memory.read s.input s.pos) (tl := Memory.readBytes s.input (s.pos + 1)
    (chunkLen (Memory.read s.input s.pos) - 1)) (by rw [← hb, hl])
  rw [← hb] at hi
  have hd : (Memory.readBytes s.input s.pos (chunkLen (Memory.read s.input s.pos))).drop
      (chunkLen (Memory.read s.input s.pos)) = [] := List.drop_eq_nil_of_le (by omega)
  have h0 := hi []
  rw [List.append_nil, hd] at h0
  obtain ⟨b0, tl, hbt, hp, hw, hlen, -, -⟩ := decodeChunk_ok h0
  rw [hb] at hbt
  cases hbt
  refine ⟨i, ?_, hp, hw, hlen, fun more => by rw [hi, hd, List.nil_append]⟩
  rw [fetchFrom, if_neg (by omega), State.memRead_of_le h]
  simp only [fetchedFrom, decode, h0, List.nil_append]

/-- Everything a chunk step's fetch can give. -/
theorem fetchChunk_cases (s : State) :
    (s.pos = s.len ∧ fetchChunk s = .raises .pixelCountShort 0#2 0#32) ∨
    (s.len < s.pos ∧ fetchChunk s = .stops .inputOutOfRange) ∨
    (∃ b0, s.inByte s.pos = some b0 ∧ s.len < s.pos + chunkLen b0 ∧
      fetchChunk s = .raises .truncatedStream 0#2 (b0.setWidth 32)) ∨
    (∃ b0 i, s.inByte s.pos = some b0 ∧ s.pos + chunkLen b0 ≤ s.len ∧ fetchChunk s = .runs i ∧
      i.place = .chunk ∧ i.wellFormed = true ∧ i.length = chunkLen b0 ∧
      ∀ more, decodeChunk (Memory.readBytes s.input s.pos (chunkLen b0) ++ more) = .ok (i, more)) := by
  rcases lt_trichotomy s.pos s.len with h | h | h
  · have hb := State.inByte_of_lt h
    have hf : fetchChunk s = fetchFrom s (Memory.read s.input s.pos) := by
      rw [fetchChunk, if_neg (by omega), hb]
    rcases Nat.lt_or_ge s.len (s.pos + chunkLen (Memory.read s.input s.pos)) with hc | hc
    · exact .inr (.inr (.inl ⟨_, hb, hc, by rw [hf, fetchFrom, if_pos hc]⟩))
    · obtain ⟨i, hi, hp, hw, hl, hd⟩ := fetchFrom_of_le hc
      exact .inr (.inr (.inr ⟨_, i, hb, hc, hf ▸ hi, hp, hw, hl, hd⟩))
  · exact .inl ⟨h, if_pos h⟩
  · refine .inr (.inl ⟨h, ?_⟩)
    rw [fetchChunk, if_neg (by omega), State.inByte, if_neg (by omega)]

/-- Everything the header step's fetch can give. -/
theorem fetchHeader_cases (s : State) :
    (s.len < 14 ∧ fetchHeader s = .raises .malformedHeader 0#2 0#32) ∨
    (14 ≤ s.len ∧ ∃ m w h ch cs, fetchHeader s = .runs (.header m w h ch cs) ∧
      ∀ more, decodeHeader (Memory.readBytes s.input 0 14 ++ more) = .ok (.header m w h ch cs, more)) := by
  rcases Nat.lt_or_ge s.len 14 with h | h
  · exact .inl ⟨h, if_pos h⟩
  · obtain ⟨m, w, ht, ch, cs, hd⟩ := decodeHeader_of_le (bs := Memory.readBytes s.input 0 14) (by simp)
    have hn : (Memory.readBytes s.input 0 14).drop 14 = [] := List.drop_eq_nil_of_le (by simp)
    rw [hn] at hd
    refine .inr ⟨h, m, w, ht, ch, cs, ?_, hd⟩
    have h0 := hd []
    rw [List.append_nil] at h0
    rw [fetchHeader, if_neg (by simp [Config.hdrLen]; omega), State.memRead_of_le (by simpa [Config.hdrLen] using h)]
    simp only [fetchedFrom, decode, Config.hdrLen, h0]

/-- Fetching reads `IN` below `L` only. -/
theorem fetchChunk_congr {s t : State} (hp : t.pos = s.pos) (hl : t.len = s.len)
    (h : ∀ a, a < s.len → Memory.read t.input a = Memory.read s.input a) : fetchChunk t = fetchChunk s := by
  have hb : ∀ i, t.inByte i = s.inByte i := fun i => by
    unfold State.inByte; rw [hl]; split
    · next hi => rw [h i hi]
    · rfl
  have hm : ∀ a k, t.memRead a k = s.memRead a k := fun a k => by
    unfold State.memRead; rw [hl]; split
    · next hk => rw [Memory.readBytes_congr fun x _ hx => h x (by omega)]
    · rfl
  simp only [fetchChunk, fetchFrom, hp, hl, hb, hm]

theorem fetchHeader_congr {s t : State} (hl : t.len = s.len)
    (h : ∀ a, a < s.len → Memory.read t.input a = Memory.read s.input a) : fetchHeader t = fetchHeader s := by
  have hm : ∀ a k, t.memRead a k = s.memRead a k := fun a k => by
    unfold State.memRead; rw [hl]; split
    · next hk => rw [Memory.readBytes_congr fun x _ hx => h x (by omega)]
    · rfl
  simp only [fetchHeader, hl, hm]

end Sys2Proof.Machine
end

