-- ==== Sys2Proof/Laws/Step.lean ====
section
/-! SUPPORT. One step: everything it can do, said once, and what running many does. -/

namespace Sys2Proof.Machine

/-! ### What stands first in a step -/

theorem step_of_cmd {s : State} {c : HostCmd} (h : s.hostCmd = some c) : step s = execHostCmd c s := by
  rw [step, h]

theorem step_waits {s : State} (h : s.hostCmd = none) (hp : s.phase = .idle ∨ s.phase = .done ∨ s.phase = .error) :
    step s = .next s := by
  rcases hp with hp | hp | hp <;> simp [step, h, stepPhase, hp]

theorem step_header {s : State} (h : s.AtHeader) : step s = runFetched (fetchHeader s) s := by
  simp [step, h.noCmd, stepPhase, h.phase]

theorem step_chunk {s : State} (h : s.AtChunk) : step s = runFetched (fetchChunk s) s := by
  simp [step, h.noCmd, stepPhase, h.phase]

theorem step_reset {s : State} (h : s.hostCmd = some .reset) : step s = .next s.hostReset := step_of_cmd h

theorem State.acceptsStart_iff (s : State) :
    s.acceptsStart = true ↔ s.phase = .idle ∨ s.phase = .done ∨ s.phase = .error := by
  unfold State.acceptsStart
  split <;> simp_all

theorem step_start {s : State} {bytes : List Byte} (h : s.hostCmd = some (.start bytes)) :
    step s = if s.acceptsStart then .next (s.start bytes) else .refused .startWhileBusy := step_of_cmd h

/-! ### Everything a step can do -/

/-- A chunk step: one of the two errors, a stop outside `IN`, or a chunk run to its end. -/
theorem step_chunk_cases {s : State} (h : s.AtChunk) :
    (s.pos = s.len ∧ step s = .next (s.raise .pixelCountShort 0#2 0#32)) ∨
    (s.len < s.pos ∧ step s = .fault .inputOutOfRange) ∨
    (∃ b0, s.inByte s.pos = some b0 ∧ s.len < s.pos + chunkLen b0 ∧
      step s = .next (s.raise .truncatedStream 0#2 (b0.setWidth 32))) ∨
    (∃ b0 i, s.inByte s.pos = some b0 ∧ s.pos + chunkLen b0 ≤ s.len ∧ i.place = .chunk ∧ i.wellFormed = true ∧
      i.length = chunkLen b0 ∧ step s = exec i s ∧
      step s = .next (s.completeChunk (produced s i) (repeats i) (chunkLen b0)) ∧
      ∀ more, decodeChunk (Memory.readBytes s.input s.pos (chunkLen b0) ++ more) = .ok (i, more)) := by
  have hs := step_chunk h
  rcases fetchChunk_cases s with ⟨h1, hf⟩ | ⟨h1, hf⟩ | ⟨b0, h1, h2, hf⟩ | ⟨b0, i, h1, h2, hf, hp, hw, hl, hd⟩ <;>
    rw [hf] at hs
  · exact .inl ⟨h1, hs⟩
  · exact .inr (.inl ⟨h1, hs⟩)
  · exact .inr (.inr (.inl ⟨b0, h1, h2, hs⟩))
  · have he : step s = exec i s := hs
    exact .inr (.inr (.inr ⟨b0, i, h1, h2, hp, hw, hl, he, by rw [he, exec_chunk hp, hl], hd⟩))

/-- A header step: too short, illegal, open, or refused. -/
theorem step_header_cases {s : State} (hs : s.AtHeader) :
    (s.len < 14 ∧ step s = .next (s.raise .malformedHeader 0#2 0#32)) ∨
    (14 ≤ s.len ∧ ∃ m w h ch cs,
      (∀ more, decodeHeader (Memory.readBytes s.input 0 14 ++ more) = .ok (.header m w h ch cs, more)) ∧
      step s = exec (.header m w h ch cs) s ∧
      ((∃ f v, invalidField m ch cs = some (f, v) ∧
          step s = .next ((s.writeHeader m w h ch cs).raise .invalidHeaderField f v)) ∨
        (invalidField m ch cs = none ∧ w.toNat * h.toNat ≤ s.outCapacity ∧
          step s = .next ((s.writeHeader m w h ch cs).openStream (w.toNat * h.toNat))) ∨
        (invalidField m ch cs = none ∧ s.outCapacity < w.toNat * h.toNat ∧
          step s = .refused .outCapacityExceeded))) := by
  have he := step_header hs
  rcases fetchHeader_cases s with ⟨hl, hf⟩ | ⟨hl, m, w, h, ch, cs, hf, hd⟩ <;> rw [hf] at he
  · exact .inl ⟨hl, he⟩
  · have he : step s = exec (.header m w h ch cs) s := he
    exact .inr ⟨hl, m, w, h, ch, cs, hd, he, he ▸ exec_header_cases m w h ch cs s⟩

/-- Every next state of a step that takes no command: waiting, the header step's three, the chunk step's three. -/
theorem step_next_cases {s t : State} (hn : s.hostCmd = none) (h : step s = .next t) :
    ((s.phase = .idle ∨ s.phase = .done ∨ s.phase = .error) ∧ t = s) ∨
    (s.phase = .header ∧ s.len < 14 ∧ t = s.raise .malformedHeader 0#2 0#32) ∨
    (s.phase = .header ∧ 14 ≤ s.len ∧ ∃ m w ht ch cs f v, invalidField m ch cs = some (f, v) ∧
      t = (s.writeHeader m w ht ch cs).raise .invalidHeaderField f v) ∨
    (s.phase = .header ∧ 14 ≤ s.len ∧ ∃ m w ht ch cs, invalidField m ch cs = none ∧
      w.toNat * ht.toNat ≤ s.outCapacity ∧ t = (s.writeHeader m w ht ch cs).openStream (w.toNat * ht.toNat)) ∨
    (s.phase = .decode ∧ s.pos = s.len ∧ t = s.raise .pixelCountShort 0#2 0#32) ∨
    (s.phase = .decode ∧ ∃ b0, s.inByte s.pos = some b0 ∧ s.len < s.pos + chunkLen b0 ∧
      t = s.raise .truncatedStream 0#2 (b0.setWidth 32)) ∨
    (s.phase = .decode ∧ ∃ b0 i, s.inByte s.pos = some b0 ∧ s.pos + chunkLen b0 ≤ s.len ∧ i.place = .chunk ∧
      i.wellFormed = true ∧ i.length = chunkLen b0 ∧ step s = exec i s ∧
      t = s.completeChunk (produced s i) (repeats i) (chunkLen b0)) := by
  cases hp : s.phase
  case idle => exact .inl ⟨by simp, by rw [step_waits hn (by simp [hp])] at h; cases h; rfl⟩
  case done => exact .inl ⟨by simp, by rw [step_waits hn (by simp [hp])] at h; cases h; rfl⟩
  case error => exact .inl ⟨by simp, by rw [step_waits hn (by simp [hp])] at h; cases h; rfl⟩
  case header =>
    rcases step_header_cases ⟨hp, hn⟩ with ⟨hl, e⟩ | ⟨hl, m, w, ht, ch, cs, -, -, h3⟩
    · rw [e] at h; cases h
      exact .inr (.inl ⟨rfl, hl, rfl⟩)
    · rcases h3 with ⟨f, v, hv, e⟩ | ⟨hv, hc, e⟩ | ⟨hv, hc, e⟩ <;> rw [e] at h <;> cases h
      · exact .inr (.inr (.inl ⟨rfl, hl, m, w, ht, ch, cs, f, v, hv, rfl⟩))
      · exact .inr (.inr (.inr (.inl ⟨rfl, hl, m, w, ht, ch, cs, hv, hc, rfl⟩)))
  case decode =>
    rcases step_chunk_cases ⟨hp, hn⟩ with ⟨he, e⟩ | ⟨he, e⟩ | ⟨b0, hb, hl, e⟩ | ⟨b0, i, hb, hl, h1, h2, h3, h4, e, -⟩
    · rw [e] at h; cases h
      exact .inr (.inr (.inr (.inr (.inl ⟨rfl, he, rfl⟩))))
    · rw [e] at h; cases h
    · rw [e] at h; cases h
      exact .inr (.inr (.inr (.inr (.inr (.inl ⟨rfl, b0, hb, hl, rfl⟩)))))
    · have ht : t = s.completeChunk (produced s i) (repeats i) (chunkLen b0) := by rw [e] at h; cases h; rfl
      exact .inr (.inr (.inr (.inr (.inr (.inr ⟨rfl, b0, i, hb, hl, h1, h2, h3, h4, ht⟩)))))

/-! ### Runs -/

theorem run_zero (s : State) : core.run 0 s = .next s := rfl

theorem hostRun_next (M : Host.Core) {s t : M.State} (h : M.step s = .next t) (k : Nat) : M.run (k + 1) s = M.run k t := by
  rw [Host.Core.run, h]

theorem hostRun_refused (M : Host.Core) {s : M.State} {r : M.Refusal} (h : M.step s = .refused r) (k : Nat) :
    M.run (k + 1) s = .refused r := by
  rw [Host.Core.run, h]

theorem hostRun_add (M : Host.Core) {s t : M.State} {j : Nat} (h : M.run j s = .next t) (k : Nat) :
    M.run (j + k) s = M.run k t := by
  induction j generalizing s with
  | zero => cases h; rw [Nat.zero_add]
  | succ j ih =>
    rw [show j + 1 + k = (j + k) + 1 by omega]
    rw [Host.Core.run] at h ⊢
    rcases hs : M.step s with u | r | r <;> rw [hs] at h
    · exact ih h
    · cases h
    · cases h

theorem run_succ {s t : State} (h : step s = .next t) (k : Nat) : core.run (k + 1) s = core.run k t :=
  hostRun_next core h k

theorem run_succ_refused {s : State} {r : Refusal} (h : step s = .refused r) (k : Nat) :
    core.run (k + 1) s = .refused r :=
  hostRun_refused core h k

/-- A run of `j + k` steps is `j` steps, then `k`. -/
theorem run_add {s t : State} {j : Nat} (h : core.run j s = .next t) (k : Nat) : core.run (j + k) s = core.run k t :=
  hostRun_add core h k

end Sys2Proof.Machine
end

