-- ==== Sys2Proof/Laws/Inv.lean ====
section
/-! SUPPORT. The invariant beside the host's moves and the predicates it is made of. -/

namespace Sys2Proof.Machine

/-- `Fresh` looks at no `PHASE`, `IN`, `L` or field of the model's own. -/
theorem State.Fresh.issue {s : State} (h : s.Fresh) (c : HostCmd) : (s.issue c).Fresh :=
  ⟨h.1, h.2, h.3, h.4, h.5, h.6, h.7, h.8, h.9, h.10, h.11, h.12, h.13, h.14⟩

theorem State.HeaderValid.issue {s : State} (h : s.HeaderValid) (c : HostCmd) : (s.issue c).HeaderValid :=
  ⟨h.1, h.2, h.3⟩

theorem State.StreamOpen.issue {s : State} (h : s.StreamOpen) (c : HostCmd) : (s.issue c).StreamOpen :=
  ⟨h.header.issue c, h.total, h.pos⟩

theorem State.RecordsError.issue {s : State} (h : s.RecordsError) (c : HostCmd) : (s.issue c).RecordsError := by
  unfold State.RecordsError at h ⊢
  rw [State.issue_errCode]
  cases hc : s.errCode <;> rw [hc] at h
  case truncatedStream => exact ⟨h.1.issue c, h.2⟩
  case pixelCountShort => exact ⟨h.1.issue c, h.2⟩
  all_goals exact h

/-- Issuing a command keeps the invariant: no element of the block changes. -/
theorem State.Inv.issue {s : State} (h : s.Inv) (c : HostCmd) : (s.issue c).Inv where
  memoryWf := h.memoryWf
  memoryBelow := h.memoryBelow
  totalFits := h.totalFits
  countLe := h.countLe
  posLe := h.posLe
  unstarted hp := (h.unstarted hp).issue c
  streamOpen hp := (h.streamOpen hp).issue c
  decodeCount := h.decodeCount
  doneCount := h.doneCount
  cachePrev := h.cachePrev
  cacheSlots := h.cacheSlots
  errorPhase := h.errorPhase
  errorRecord := h.errorRecord.issue c
  clippedEnds := h.clippedEnds

/-- Outside ERROR no error is recorded. -/
theorem State.Inv.noError {s : State} (h : s.Inv) (hp : s.phase ≠ .error) : s.errCode = .noError :=
  by_contra fun hc => hp (h.errorPhase.2 hc)

end Sys2Proof.Machine
end

