-- ==== Sys2Proof/Laws/PerInstr.lean ====
section
/-! SUPPORT. Facts about each instruction as syntax, one lemma a constructor. -/

/-- An encoding has the instruction's length, and a chunk's lead byte announces exactly that length (R73). -/
def Sys2Proof.Laws.EncodeShape.Statement (i : Sys2Proof.Instr) : Prop :=
  i.wellFormed = true → (Sys2Proof.encode i).length = i.length ∧
    (i.place = .chunk → ∃ b0 tl, Sys2Proof.encode i = b0 :: tl ∧ Sys2Proof.chunkLen b0 = i.length)

namespace Sys2Proof.Laws.EncodeShape

theorem header (m w h : Word) (ch cs : Byte) : Statement (.header m w h ch cs) :=
  fun _ => ⟨rfl, fun h => by cases h⟩

theorem rgb (r g b : Byte) : Statement (.rgb r g b) := fun _ => ⟨rfl, fun _ => ⟨_, _, rfl, rfl⟩⟩

theorem rgba (r g b a : Byte) : Statement (.rgba r g b a) := fun _ => ⟨rfl, fun _ => ⟨_, _, rfl, rfl⟩⟩

theorem index (idx : BitVec 6) : Statement (.index idx) :=
  fun _ => ⟨rfl, fun _ => ⟨_, _, rfl, by revert idx; decide⟩⟩

theorem diff (dr dg db : BitVec 2) : Statement (.diff dr dg db) :=
  fun _ => ⟨rfl, fun _ => ⟨_, _, rfl, by revert dr dg db; decide⟩⟩

theorem luma (dg : BitVec 6) (drdg dbdg : BitVec 4) : Statement (.luma dg drdg dbdg) :=
  fun _ => ⟨rfl, fun _ => ⟨_, _, rfl, chunkLen_luma dg⟩⟩

theorem run (n : BitVec 6) : Statement (.run n) := fun hw =>
  ⟨rfl, fun _ => ⟨_, _, rfl, by
    have h : n.toNat < 62 := of_decide_eq_true hw
    revert h; clear hw; revert n; decide⟩⟩

end Sys2Proof.Laws.EncodeShape
end

