-- ==== Sys2Proof/Tests/Slice0.lean ====
section
/-! SUPPORT. Tests: WellFormed's smoke test, decoding of words written out from the encodings, one step of each
instruction with the results of 95_test_vectors.md, and a witness for the hypotheses of each statement. -/

namespace Sys2Proof.Tests

open Sys2Proof.Machine

/-! ### Small states -/

/-- The state after reset on a platform whose output holds 1000 pixels. -/
def idle : State := { State.reset with outCapacity := 1000 }

/-- A 14-byte header: magic, width and height by their low bytes, channels, colorspace. -/
def hdr (w h ch cs : Byte) : List Byte := [0x71#8, 0x6F#8, 0x69#8, 0x66#8, 0#8, 0#8, 0#8, w, 0#8, 0#8, 0#8, h, ch, cs]

/-- The state START leaves with this input. -/
def started (bytes : List Byte) : State := idle.start bytes

/-- A state in DECODE: a 2 x 2 image with channels 4, colorspace 0, at offset 14 of this stream. -/
def decoding (chunks : List Byte) : State :=
  { started (hdr 2#8 2#8 4#8 0#8 ++ chunks) with
    phase := .decode, hdrMagic := 0x716F6966#32, hdrWidth := 2#32, hdrHeight := 2#32, hdrChannels := 4#8, n := 4, pos := 14 }

/-- The same with this `PREV`. -/
def decodingAfter (p : Pixel) (chunks : List Byte) : State := { decoding chunks with prev := p }

/-- A finished decode of a 2 x 2 image. -/
def finished : State :=
  { decoding [] with phase := .done, out := List.replicate 4 Config.startPixel }

/-- A decode that ended one pixel in. -/
def failed : State :=
  { decoding [] with phase := .error, errCode := .pixelCountShort, out := [Config.startPixel] }

/-- The outcome is a next state of which this holds. -/
def nextIs (p : State → Bool) : Host.Outcome State Fault Refusal → Bool
  | .next t => p t
  | .fault _ => false
  | .refused _ => false

/-! ### WellFormed -/

theorem test_run_of_field_61_is_well_formed : (Instr.run 61#6).wellFormed = true := by decide
theorem test_run_of_field_62_is_refused : (Instr.run 62#6).wellFormed = false := by decide

/-! ### Decoding, words written from 30_encoding.md R71 and R75 -/

theorem test_decode_header :
    decode .header [0b01110001#8, 0b01101111#8, 0b01101001#8, 0b01100110#8, 0#8, 0#8, 0b00000001#8, 0b00000010#8,
      0b00000011#8, 0#8, 0#8, 0b00000100#8, 0b00000011#8, 0b00000001#8] =
      .ok (.header 0x716F6966#32 0x00000102#32 0x03000004#32 3#8 1#8, []) := by decide
theorem test_decode_rgb :
    decode .chunk [0b11111110#8, 0b11111110#8, 0b11111111#8, 0b00000000#8] = .ok (.rgb 254#8 255#8 0#8, []) := by decide
theorem test_decode_rgba :
    decode .chunk [0b11111111#8, 0b00001010#8, 0b00010100#8, 0b00011110#8, 0b00101000#8] =
      .ok (.rgba 10#8 20#8 30#8 40#8, []) := by decide
theorem test_decode_index : decode .chunk [0b00110101#8, 0xC0#8] = .ok (.index 53#6, [0xC0#8]) := by decide
theorem test_decode_diff : decode .chunk [0b01001101#8] = .ok (.diff 0b00#2 0b11#2 0b01#2, []) := by decide
theorem test_decode_luma : decode .chunk [0b10100101#8, 0b01011010#8] = .ok (.luma 0b100101#6 0b0101#4 0b1010#4, []) := by
  decide
theorem test_decode_run : decode .chunk [0b11111101#8] = .ok (.run 61#6, []) := by decide
theorem test_decode_truncated : decode .chunk [0xFE#8, 1#8, 2#8] = .error (.truncated 0xFE#8) := by decide
theorem test_decode_nothing : decode .chunk [] = .error .noLeadByte := by decide
theorem test_decode_short_header : decode .header [0x71#8] = .error .shortHeader := by decide

/-! ### The table's words -/

theorem test_table_words :
    decodeTableWord 112 0x716F6966 = some (.header 0x716F6966#32 0#32 0#32 0#8 0#8) ∧
    decodeTableWord 32 0x716F6966 = some (.header 0x716F6966#32 0#32 0#32 0#8 0#8) ∧
    decodeTableWord 32 0xC89664FE = some (.rgb 0x64#8 0x96#8 0xC8#8) ∧
    decodeTableWord 40 0x281E140AFF = some (.rgba 10#8 20#8 30#8 40#8) ∧
    decodeTableWord 8 0x07 = some (.index 7#6) ∧ decodeTableWord 8 0x4D = some (.diff 0#2 3#2 1#2) ∧
    decodeTableWord 16 0x5AA5 = some (.luma 37#6 5#4 10#4) ∧ decodeTableWord 8 0xC4 = some (.run 4#6) := by decide

theorem test_table_words_run_first :
    nextIs (fun t => decide (t.phase = .error ∧ t.errField = 1#2)) (step (State.reset.withFetchWord 112 0x716F6966)) ∧
    nextIs (fun t => decide (t.out = [⟨0x64#8, 0x96#8, 0xC8#8, 255#8⟩]))
      (step (State.reset.withFetchWord 32 0xC89664FE)) ∧
    nextIs (fun t => decide (t.out = [⟨10#8, 20#8, 30#8, 40#8⟩])) (step (State.reset.withFetchWord 40 0x281E140AFF)) ∧
    nextIs (fun t => decide (t.pos = 15 ∧ t.count = 1)) (step (State.reset.withFetchWord 8 0x07)) ∧
    nextIs (fun t => decide (t.out = [⟨254#8, 1#8, 255#8, 255#8⟩])) (step (State.reset.withFetchWord 8 0x4D)) ∧
    nextIs (fun t => decide (t.out = [⟨2#8, 5#8, 7#8, 255#8⟩])) (step (State.reset.withFetchWord 16 0x5AA5)) ∧
    nextIs (fun t => decide (t.count = 62 ∧ t.clipped = false)) (step (State.reset.withFetchWord 8 0xFD)) := by decide

/-! ### The assembler (R82, R83), bytes of P2 and P4 -/

theorem test_assemble_program_p2 :
    assemble [.header 2 2 3 0, .rgb 100 150 200, .diff 1 (-1) 0, .luma 5 (-3) 2, .index 7] =
      some [0x71#8, 0x6F#8, 0x69#8, 0x66#8, 0#8, 0#8, 0#8, 2#8, 0#8, 0#8, 0#8, 2#8, 3#8, 0#8, 0xFE#8, 0x64#8, 0x96#8,
        0xC8#8, 0x76#8, 0xA5#8, 0x5A#8, 0x07#8] := by decide
theorem test_assemble_magic_is_used_once :
    (assemble [.magic 0x716F6978#32, .header 0 0 4 0, .header 0 0 4 0, .byte [254]]).map
      (fun bs => (bs[3]?, bs[17]?, bs[28]?)) = some (some 0x78#8, some 0x66#8, some 0xFE#8) := by decide
theorem test_assemble_rejects_run_63 : assemble [.run 63] = none := by decide

/-! ### START and the header step: S3, H1, H2, H5, H6, H7 -/

theorem test_start_from_done :
    nextIs (fun t => decide (t.phase = .header ∧ t.count = 0 ∧ t.len = 14 ∧ t.inByte 13 = some 1#8 ∧ t.inByte 14 = none))
      (step (finished.issue (.start (hdr 1#8 1#8 4#8 1#8)))) := by decide
theorem test_reset_from_decode :
    nextIs (fun t => decide (t.phase = .idle ∧ t.pos = 0 ∧ t.hdrMagic = 0#32)) (step ((decoding [0xFD#8]).issue .reset)) := by
  decide
theorem test_header_opens :
    nextIs (fun t => decide (t.phase = .decode ∧ t.n = 4 ∧ t.pos = 14 ∧ t.hdrChannels = 3#8))
      (step (started (hdr 2#8 2#8 3#8 0#8 ++ [0xFE#8]))) := by decide
theorem test_header_errors :
    nextIs (fun t => decide (t.phase = .error ∧ t.errCode = .invalidHeaderField ∧ t.errField = 0#2 ∧
      t.errValue = 0x716F6978#32 ∧ t.pos = 0)) (step (started
        [0x71#8, 0x6F#8, 0x69#8, 0x78#8, 0#8, 0#8, 0#8, 1#8, 0#8, 0#8, 0#8, 1#8, 4#8, 0#8])) ∧
    nextIs (fun t => decide (t.errField = 1#2 ∧ t.errValue = 5#32)) (step (started (hdr 1#8 1#8 5#8 2#8))) ∧
    nextIs (fun t => decide (t.errField = 2#2 ∧ t.errValue = 2#32 ∧ t.hdrColorspace = 2#8))
      (step (started (hdr 1#8 1#8 3#8 2#8))) ∧
    nextIs (fun t => decide (t.errCode = .malformedHeader ∧ t.hdrMagic = 0#32))
      (step (started ((hdr 1#8 1#8 4#8 0#8).take 13))) ∧
    nextIs (fun t => decide (t.phase = .done ∧ t.count = 0 ∧ t.pos = 14))
      (step (started (hdr 0#8 5#8 4#8 0#8 ++ [0xFE#8]))) := by decide

/-! ### Chunks: T1, T6, X1, X4, F1, F2, L2, L4, U3, T7, L8, H3 -/

theorem test_rgb_keeps_alpha :
    nextIs (fun t => decide (t.prev = ⟨16#8, 32#8, 48#8, 4#8⟩ ∧ t.cacheRead 12#6 = t.prev ∧ t.pos = 18 ∧ t.count = 1))
      (step (decodingAfter ⟨1#8, 2#8, 3#8, 4#8⟩ [0xFE#8, 0x10#8, 0x20#8, 0x30#8])) := by decide
theorem test_rgba_all_ones :
    nextIs (fun t => decide (t.prev = ⟨255#8, 255#8, 255#8, 255#8⟩ ∧ t.cacheRead 38#6 = t.prev ∧ t.pos = 19))
      (step (decodingAfter ⟨7#8, 7#8, 7#8, 7#8⟩ [0xFF#8, 0xFF#8, 0xFF#8, 0xFF#8, 0xFF#8])) := by decide
theorem test_index_of_an_untouched_slot :
    nextIs (fun t => decide (t.out = [⟨0#8, 0#8, 0#8, 255#8⟩] ∧ t.pos = 15)) (step (decoding [0x07#8])) := by decide
theorem test_index_reads_the_slot_written :
    nextIs (fun t => decide (t.prev = ⟨255#8, 0#8, 128#8, 40#8⟩ ∧ t.cacheRead 53#6 = t.prev))
      (step ((decoding [0x35#8]).cacheWrite 53#6 ⟨255#8, 0#8, 128#8, 40#8⟩)) := by decide
theorem test_diff_wraps_below_zero :
    nextIs (fun t => decide (t.prev = ⟨255#8, 255#8, 255#8, 9#8⟩ ∧ t.cacheRead 20#6 = t.prev))
      (step (decodingAfter ⟨1#8, 1#8, 1#8, 9#8⟩ [0x40#8])) := by decide
theorem test_diff_channels_apart :
    nextIs (fun t => decide (t.prev = ⟨255#8, 0#8, 255#8, 7#8⟩ ∧ t.cacheRead 3#6 = t.prev))
      (step (decodingAfter ⟨1#8, 255#8, 0#8, 7#8⟩ [0x4D#8])) := by decide
theorem test_luma_extremes :
    nextIs (fun t => decide (t.prev = ⟨216#8, 224#8, 216#8, 255#8⟩ ∧ t.cacheRead 5#6 = t.prev ∧ t.pos = 16))
      (step (decoding [0x80#8, 0x00#8])) := by decide
theorem test_luma_sides_apart :
    nextIs (fun t => decide (t.prev = ⟨12#8, 25#8, 37#8, 40#8⟩ ∧ t.cacheRead 28#6 = t.prev))
      (step (decodingAfter ⟨10#8, 20#8, 30#8, 40#8⟩ [0xA5#8, 0x5A#8])) := by decide
theorem test_run_clipped_at_the_total :
    nextIs (fun t => decide (t.count = 4 ∧ t.clipped = true ∧ t.phase = .done ∧ t.pos = 15 ∧ t.errCode = .noError))
      (step (decoding [0xC4#8])) := by decide
theorem test_run_within_the_total :
    nextIs (fun t => decide (t.count = 2 ∧ t.clipped = false ∧ t.phase = .decode)) (step (decoding [0xC1#8])) := by decide
theorem test_truncated_rgb :
    nextIs (fun t => decide (t.phase = .error ∧ t.errCode = .truncatedStream ∧ t.errValue = 0xFE#32 ∧ t.pos = 14 ∧
      t.count = 0)) (step (decoding [0xFE#8, 1#8, 2#8])) := by decide
theorem test_input_ends_at_a_boundary :
    nextIs (fun t => decide (t.errCode = .pixelCountShort ∧ t.errValue = 0#32 ∧ t.pos = 14)) (step (decoding [])) := by decide

/-! ### Hashes of 95_test_vectors.md section 2.1 -/

theorem test_hashes :
    pixelHash ⟨0#8, 0#8, 0#8, 255#8⟩ = 53#6 ∧ pixelHash ⟨255#8, 255#8, 255#8, 255#8⟩ = 38#6 ∧ pixelHash ⟨1#8, 0#8, 0#8, 0#8⟩ = 3#6 ∧
      pixelHash ⟨1#8, 2#8, 3#8, 255#8⟩ = 23#6 ∧ pixelHash ⟨100#8, 150#8, 200#8, 255#8⟩ = 7#6 := by decide

/-! ### The host's view -/

theorem test_host_view :
    finished.handover = some (2#32, 2#32, List.replicate 4 Config.startPixel) ∧ failed.handover = none ∧
      finished.pixelAt 1 1 = some Config.startPixel ∧ finished.pixelAt 2 0 = none ∧ failed.hostRead .errCode = 4 ∧
      finished.hostRead .hdrMagic = 0x716F6966 ∧ failed.result = some (.failed .pixelCountShort 0#2 0#32 14 1) := by decide

/-! ### Witnesses: concrete states and operands that meet the hypotheses of each statement, clause by clause -/

/-- The next state, or the same one where there is none. -/
def nextState (s : State) : State :=
  match step s with
  | .next t => t
  | .fault _ => s
  | .refused _ => s

theorem reachable_next {s : State} (h : Reachable s) : Reachable (nextState s) := by
  unfold nextState
  split
  · next e => exact h.step e
  · exact h
  · exact h

theorem inv_idle : idle.Inv := by
  constructor
  case unstarted => intro; constructor <;> decide
  case streamOpen => intro h; exact absurd h (by decide)
  case errorRecord => exact ⟨by decide, by decide⟩
  all_goals decide

theorem inv_decoding : (decoding [0xFE#8, 1#8, 2#8, 3#8]).Inv := by
  constructor
  case unstarted => intro h; exact absurd h (by decide)
  case streamOpen => intro; exact ⟨⟨by decide, by decide, by decide⟩, by decide, by decide⟩
  case errorRecord => exact ⟨by decide, by decide⟩
  all_goals decide

theorem inv_finished : finished.Inv := by
  constructor
  case unstarted => intro h; exact absurd h (by decide)
  case streamOpen => intro; exact ⟨⟨by decide, by decide, by decide⟩, by decide, by decide⟩
  case errorRecord => exact ⟨by decide, by decide⟩
  all_goals decide

theorem inv_failed : failed.Inv := by
  constructor
  case unstarted => intro h; exact absurd h (by decide)
  case streamOpen => intro h; exact absurd h (by decide)
  case errorRecord => exact ⟨⟨⟨by decide, by decide, by decide⟩, by decide, by decide⟩, by decide⟩
  all_goals decide

theorem atChunk_decoding (chunks : List Byte) : (decoding chunks).AtChunk := ⟨rfl, rfl⟩

theorem atHeader_started (bytes : List Byte) : (started bytes).AtHeader := ⟨rfl, rfl⟩

theorem reachable_idle : Reachable idle := .reset 1000

theorem reachable_done : ∃ s, Reachable s ∧ s.phase = .done ∧ s.count = 1 ∧ s.errCode = .noError :=
  ⟨nextState (nextState (nextState (idle.issue (.start (hdr 1#8 1#8 4#8 0#8 ++ [0xFF#8, 10#8, 20#8, 30#8, 40#8]))))),
    reachable_next (reachable_next (reachable_next (.command _ reachable_idle))), by decide⟩

theorem reachable_errors : ∀ e : ErrKind, e ≠ .noError → e ≠ .pixelCountExceeded → ∃ s, Reachable s ∧ s.errCode = e := by
  have h : ∀ bytes, Reachable (nextState (nextState (nextState (idle.issue (.start bytes))))) := fun _ =>
    reachable_next (reachable_next (reachable_next (.command _ reachable_idle)))
  intro e h1 h2
  cases e
  case noError => exact absurd rfl h1
  case malformedHeader => exact ⟨_, h [], by decide⟩
  case invalidHeaderField => exact ⟨_, h (hdr 1#8 1#8 5#8 0#8), by decide⟩
  case truncatedStream => exact ⟨_, h (hdr 1#8 1#8 4#8 0#8 ++ [0xFE#8]), by decide⟩
  case pixelCountShort => exact ⟨_, h (hdr 1#8 1#8 4#8 0#8), by decide⟩
  case pixelCountExceeded => exact absurd rfl h2

/-- A next state from each phase without a command, and by each command. -/
theorem witness_PhaseCodesAndTransitions :
    (∀ s ∈ [idle, finished, failed, started (hdr 0#8 1#8 4#8 0#8), started (hdr 1#8 1#8 4#8 0#8), started [],
      decoding [0xFD#8], decoding [0xC0#8], decoding []], s.hostCmd = none ∧ nextIs (fun _ => true) (step s)) ∧
    nextIs (fun _ => true) (step (failed.issue (.start []))) ∧
    nextIs (fun _ => true) (step ((decoding []).issue .reset)) := by decide

theorem witness_WaitingAnswersTheSameState :
    ∀ s ∈ [idle, finished, failed], s.hostCmd = none ∧ (s.phase = .idle ∨ s.phase = .done ∨ s.phase = .error) := by decide

theorem witness_ResetAndStartValues :
    nextIs (fun _ => true) (step (finished.issue .reset)) ∧ (finished.issue .reset).hostCmd = some .reset ∧
    nextIs (fun _ => true) (step (finished.issue (.start [1#8]))) ∧
    (finished.issue (.start [1#8])).hostCmd = some (.start [1#8]) := by decide

theorem witness_ResetCommandResetsFromAnyPhase :
    ∀ s ∈ [idle, started [], decoding [0xFD#8], finished, failed], (s.issue .reset).hostCmd = some .reset := by decide

theorem witness_StartLoadsTheInputAndRewritesEverything :
    ∀ s ∈ [idle, finished, failed], (s.issue (.start [0#8, 7#8])).hostCmd = some (.start [0#8, 7#8]) ∧
      (s.phase = .idle ∨ s.phase = .done ∨ s.phase = .error) := by decide

theorem witness_StartWhileBusyIsRefused :
    ∀ s ∈ [started [], decoding []], (s.issue (.start [])).hostCmd = some (.start []) ∧
      (s.phase = .header ∨ s.phase = .decode) := by decide

theorem witness_OutcomeDependsOnlyOnTheInput :
    idle.acceptsStart = true ∧ finished.acceptsStart = true ∧ failed.acceptsStart = true ∧
      idle.outCapacity = finished.outCapacity ∧ idle.outCapacity = failed.outCapacity := by decide

theorem witness_NoStepOfTheBlockWritesTheInput :
    ∀ s ∈ [started [], decoding [0xFD#8], decoding [], finished], s.hostCmd = none ∧ nextIs (fun _ => true) (step s) := by
  decide

/-- A memory that differs at `L` and nowhere below; and each clause's short input. -/
theorem witness_NothingIsReadAtOrAboveTheLength :
    ((∀ a, a < (decoding [0xFE#8]).len → Memory.read (Memory.write (decoding [0xFE#8]).input 15 9#8) a =
        Memory.read (decoding [0xFE#8]).input a) ∧ (decoding [0xFE#8]).hostCmd = none ∧
        Memory.write (decoding [0xFE#8]).input 15 9#8 ≠ (decoding [0xFE#8]).input) ∧
    (started [1#8]).len < 14 ∧ (decoding []).pos = (decoding []).len ∧
    ((decoding [0xFE#8]).inByte (decoding [0xFE#8]).pos = some 0xFE#8 ∧
      (decoding [0xFE#8]).len < (decoding [0xFE#8]).pos + chunkLen 0xFE#8) := by decide

theorem witness_OutputIsAppendedInRowMajorOrder :
    (nextIs (fun _ => true) (step (decoding [0xC1#8])) ∧ (decoding [0xC1#8]).hostCmd = none) ∧
    [Pixel.mk 9#8 9#8 9#8 9#8].length = failed.count ∧ failed.hostCmd = none ∧
    (finished.phase = .done ∧ 0 < finished.count ∧ 3 < finished.count) := by decide

theorem witness_HandoverOnlyAtDoneAndWhole :
    (finished.Inv ∧ finished.phase = .done ∧ finished.hostCmd = none ∧ nextIs (fun _ => true) (step finished)) ∧
    (failed.Inv ∧ failed.phase ≠ .done) := ⟨⟨inv_finished, by decide⟩, inv_failed, by decide⟩

theorem witness_CanonicalMemoriesThatReadAlikeAreEqual :
    Memory.wf (Memory.ofBytes [0#8, 5#8, 6#8]) ∧ Memory.wf [(1, 5#8), (2, 6#8)] ∧
      ∀ a, Memory.read (Memory.ofBytes [0#8, 5#8, 6#8]) a = Memory.read [(1, 5#8), (2, 6#8)] a :=
  ⟨by decide, by decide, fun _ => rfl⟩

theorem witness_CursorAndCounterFitTheirWidths :
    finished.Inv ∧ finished.len ≤ 14 ∧ 14 < 2 ^ 4 ∧ finished.outCapacity < 2 ^ 10 := ⟨inv_finished, by decide⟩

/-- The boundary bytes of every range, and operand bytes one short and just enough. -/
theorem witness_ChunkLengthFromTheLeadByteAlone :
    (0xFE#8).toNat = 0xFE ∧ (0xFF#8).toNat = 0xFF ∧ (0x00#8).toNat ≤ 0x7F ∧ (0x7F#8).toNat ≤ 0x7F ∧
    (0x80 ≤ (0x80#8).toNat ∧ (0xBF#8).toNat ≤ 0xBF) ∧ (0xC0 ≤ (0xC0#8).toNat ∧ (0xFD#8).toNat ≤ 0xFD) ∧
    [0xFF#8, 1#8, 2#8, 3#8].length < chunkLen 0xFF#8 ∧ chunkLen 0xFF#8 ≤ [0xFF#8, 1#8, 2#8, 3#8, 4#8].length := by decide

theorem witness_FieldsStandWhereTheFormatsSay :
    (0xFE#8).toNat = 0xFE ∧ (0xFF#8).toNat = 0xFF ∧ (0x3F#8).toNat ≤ 0x3F ∧ 0x40 ≤ (0x40#8).toNat ∧
    (0x7F#8).toNat ≤ 0x7F ∧ 0x80 ≤ (0x80#8).toNat ∧ (0xBF#8).toNat ≤ 0xBF ∧ 0xC0 ≤ (0xC0#8).toNat ∧
    (0xFD#8).toNat ≤ 0xFD := by decide

theorem witness_RunsRepeatOneToSixtyTwoTimes :
    decode .chunk [0xC0#8] = .ok (.run 0#6, []) ∧ decode .chunk [0xFD#8] = .ok (.run 61#6, []) ∧ 1 ≤ 62 ∧ 62 ≤ 62 := by
  decide

theorem witness_DecodeOfEncodeIsTheInstruction :
    (Instr.run 61#6).wellFormed = true ∧ (Instr.header 0#32 0#32 0#32 9#8 9#8).wellFormed = true := by decide

theorem witness_EncodeOfDecodeIsTheBytes :
    decode .chunk [0xBF#8, 0xFF#8, 1#8] = .ok (.luma 63#6 15#4 15#4, [1#8]) ∧
    decode .header (hdr 1#8 1#8 4#8 0#8) = .ok (.header 0x716F6966#32 1#32 1#32 4#8 0#8, []) := by decide

theorem witness_AssembledChunksDecodeToTheirOperands :
    assemble [.rgb 0 255 7] = some [0xFE#8, 0#8, 255#8, 7#8] ∧
    assemble [.rgba 0 255 7 1] = some [0xFF#8, 0#8, 255#8, 7#8, 1#8] ∧ assemble [.index 63] = some [0x3F#8] ∧
    assemble [.diff (-2) 1 0] = some [0x4E#8] ∧ assemble [.luma 31 (-8) 7] = some [0xBF#8, 0x0F#8] ∧
    assemble [.run 62] = some [0xFD#8] := by decide

theorem witness_HeaderStepReadsItsFieldsBigEndian :
    14 ≤ (started (hdr 1#8 2#8 4#8 0#8)).len ∧
    ∀ i, i < 14 → (started (hdr 1#8 2#8 4#8 0#8)).inByte i = some ((hdr 1#8 2#8 4#8 0#8).getD i 0#8) := by decide

theorem witness_ShortHeaderIsMalformed :
    (started []).AtHeader ∧ (started []).len < 14 ∧ (started (List.replicate 13 0x71#8)).AtHeader ∧
      (started (List.replicate 13 0x71#8)).len < 14 :=
  ⟨atHeader_started _, by decide, atHeader_started _, by decide⟩

/-- The invariant holds of a state of a short header too. -/
theorem witness_ShortHeaderIsMalformed_inv : (started [0x71#8]).Inv := by
  constructor
  case unstarted => intro; constructor <;> decide
  case streamOpen => intro h; exact absurd h (by decide)
  case errorRecord => exact ⟨by decide, by decide⟩
  all_goals decide

theorem witness_FirstIllegalHeaderFieldIsReported :
    0x716F6978#32 ≠ 0x716F6966#32 ∧ (5#8 ≠ 3#8 ∧ 5#8 ≠ 4#8) ∧ (2#8 ≠ 3#8 ∧ 2#8 ≠ 4#8) ∧ (2#8 ≠ 0#8 ∧ 2#8 ≠ 1#8) := by
  decide

theorem witness_LegalHeaderOpensTheStreamOrIsRefused :
    (10#32).toNat * (100#32).toNat ≤ idle.outCapacity ∧ idle.outCapacity < (7#32).toNat * (143#32).toNat ∧
      (0#32).toNat * (5#32).toNat ≤ idle.outCapacity := by decide

theorem witness_NoPixelsEndTheDecodeAtOnce : (started (hdr 0#8 5#8 4#8 0#8)).AtHeader ∧
    (started (hdr 0#8 5#8 4#8 0#8)).Fresh :=
  ⟨atHeader_started _, by constructor <;> decide⟩

theorem witness_ChannelsAndColorspaceAffectNoDecoding :
    nextIs (fun t => decide (t.phase ≠ .error)) (exec (.header 0x716F6966#32 1#32 1#32 3#8 1#8) (started [])) ∧
      (decoding [0xFD#8]).phase ≠ .header ∧ (decoding [0xFD#8]).hostCmd = none := by decide

theorem witness_OnlyTheHeaderStepWritesTheHeaderRegisters :
    (decoding [0xFD#8]).hostCmd = none ∧ (decoding [0xFD#8]).phase ≠ .header ∧
      nextIs (fun _ => true) (step (decoding [0xFD#8])) := by decide

theorem witness_StepRunsTheDecodedInstruction :
    (decoding [0xA5#8, 0x5A#8, 7#8]).AtChunk ∧ (started (hdr 1#8 1#8 4#8 0#8 ++ [7#8])).AtHeader ∧
    ((decoding [0xA5#8, 0x5A#8, 7#8]).pos < (decoding [0xA5#8, 0x5A#8, 7#8]).len ∧
      decode .chunk (decoding [0xA5#8, 0x5A#8, 7#8]).remaining = .ok (.luma 37#6 5#4 10#4, [7#8])) ∧
    decode .header (Memory.readBytes (started (hdr 1#8 1#8 4#8 0#8 ++ [7#8])).input 0
      (started (hdr 1#8 1#8 4#8 0#8 ++ [7#8])).len) = .ok (.header 0x716F6966#32 1#32 1#32 4#8 0#8, [7#8]) :=
  ⟨atChunk_decoding _, atHeader_started _, by decide⟩

theorem witness_InputEndingAtABoundaryIsPixelCountShort :
    (decoding []).AtChunk ∧ (decoding []).pos = (decoding []).len := ⟨atChunk_decoding _, by decide⟩

/-- Each kind that can be cut short, one byte short. -/
theorem witness_ChunkCutShortIsTruncatedStream :
    ∀ bs ∈ [[0xFE#8, 1#8, 2#8], [0xFF#8, 1#8, 2#8, 3#8], [0x80#8], [0xBF#8]],
      (decoding bs).inByte (decoding bs).pos = some (bs.headD 0#8) ∧
        (decoding bs).len < (decoding bs).pos + chunkLen (bs.headD 0#8) := by decide

/-- Pixels still needed: the hypothesis of every chunk's result, at one and at several. -/
theorem witness_chunks_with_pixels_needed :
    (decoding []).count < (decoding []).n ∧
      ({ decoding [] with out := List.replicate 3 Config.startPixel } : State).count < (decoding []).n ∧
      (Instr.run 61#6).place = .chunk ∧ (Instr.run 61#6).wellFormed = true := by decide

theorem witness_EveryChunkCommitsAlike :
    ∀ i ∈ [Instr.rgb 1#8 2#8 3#8, .rgba 1#8 2#8 3#8 4#8, .index 5#6, .diff 0#2 1#2 2#2, .luma 9#6 1#4 2#4, .run 0#6,
      .run 61#6], i.place = .chunk ∧ i.wellFormed = true ∧ (decoding []).count < (decoding []).n := by decide

/-- Each clause about a chunk's bytes: one operand short, and whole. -/
theorem witness_RgbTakesItsOperandsAndKeepsAlpha :
    (decoding []).count < (decoding []).n ∧ (decoding [0xFE#8, 1#8, 2#8]).AtChunk ∧
    ((decoding [0xFE#8, 1#8, 2#8]).inByte 14 = some 0xFE#8 ∧ (decoding [0xFE#8, 1#8, 2#8]).len < 14 + 4) ∧
    ∀ i ∈ [(0, 0xFE#8), (1, 0xFF#8), (2, 0#8), (3, 7#8)],
      (decoding [0xFE#8, 0xFF#8, 0#8, 7#8]).inByte (14 + i.1) = some i.2 :=
  ⟨by decide, atChunk_decoding _, by decide, by decide⟩

theorem witness_RgbaTakesAllFourOperands :
    (decoding []).count < (decoding []).n ∧ (decoding [0xFF#8, 1#8, 2#8, 3#8]).AtChunk ∧
    ((decoding [0xFF#8, 1#8, 2#8, 3#8]).inByte 14 = some 0xFF#8 ∧ (decoding [0xFF#8, 1#8, 2#8, 3#8]).len < 14 + 5) ∧
    ∀ i ∈ [(0, 0xFF#8), (1, 0xFE#8), (2, 0#8), (3, 7#8), (4, 8#8)],
      (decoding [0xFF#8, 0xFE#8, 0#8, 7#8, 8#8]).inByte (14 + i.1) = some i.2 :=
  ⟨by decide, atChunk_decoding _, by decide, by decide⟩

theorem witness_IndexProducesThePixelOfItsSlot :
    (decoding []).count < (decoding []).n ∧ (decoding [0x3F#8]).AtChunk ∧
      (decoding [0x3F#8]).inByte (decoding [0x3F#8]).pos = some 0x3F#8 ∧ (0x3F#8).toNat ≤ 0x3F ∧ finished.Inv :=
  ⟨by decide, atChunk_decoding _, by decide, by decide, inv_finished⟩

theorem witness_DiffAddsSmallDeltasModulo256 :
    (decoding []).count < (decoding []).n ∧ (decoding [0x40#8]).AtChunk ∧
      (decoding [0x40#8]).inByte (decoding [0x40#8]).pos = some 0x40#8 ∧ 0x40 ≤ (0x40#8).toNat ∧ (0x7F#8).toNat ≤ 0x7F ∧
      (decoding [0x7F#8]).inByte (decoding [0x7F#8]).pos = some 0x7F#8 :=
  ⟨by decide, atChunk_decoding _, by decide⟩

theorem witness_LumaAddsCoupledDeltasModulo256 :
    (decoding []).count < (decoding []).n ∧ (decoding [0x80#8]).AtChunk ∧
      ((decoding [0x80#8]).inByte 14 = some 0x80#8 ∧ 14 + 1 = (decoding [0x80#8]).len) ∧
      (decoding [0xBF#8, 0xFF#8]).inByte 14 = some 0xBF#8 ∧ (decoding [0xBF#8, 0xFF#8]).inByte 15 = some 0xFF#8 :=
  ⟨by decide, atChunk_decoding _, by decide⟩

theorem witness_DecodeHaltsExactlyAtTheTotal :
    (decoding [0xC4#8]).AtChunk ∧ (decoding [0xC4#8]).count < (decoding [0xC4#8]).n ∧
      nextIs (fun t => decide (t.phase = .done) && nextIs (fun _ => true) (step t)) (step (decoding [0xC4#8])) ∧
      nextIs (fun t => decide (t.phase = .decode)) (step (decoding [0xC1#8])) :=
  ⟨atChunk_decoding _, by decide, by decide, by decide⟩

theorem witness_ChunkMeaningDependsOnPrevAndCacheAlone :
    (decoding []).prev = idle.prev ∧ (decoding []).cache = idle.cache ∧ (Instr.diff 0#2 1#2 2#2).place = .chunk ∧
      nextIs (fun _ => true) (exec (.diff 0#2 1#2 2#2) (decoding [])) ∧
      nextIs (fun _ => true) (exec (.diff 0#2 1#2 2#2) idle) := by decide

theorem witness_NextChunkSeesThePreviousWrites :
    (Instr.rgb 1#8 2#8 3#8).place = .chunk ∧ nextIs (fun _ => true) (exec (.rgb 1#8 2#8 3#8) (decoding [])) := by decide

theorem witness_CursorMovesForwardByTheChunkLength :
    (started (hdr 1#8 1#8 4#8 0#8)).AtHeader ∧ (decoding [0xFF#8, 1#8, 2#8, 3#8, 4#8]).AtChunk ∧
      nextIs (fun t => decide (t.phase = .decode)) (step (started (hdr 1#8 1#8 4#8 0#8))) ∧
      nextIs (fun t => decide (t.phase = .error)) (step (started [])) ∧
      nextIs (fun t => decide (t.phase ≠ .error)) (step (decoding [0xFF#8, 1#8, 2#8, 3#8, 4#8])) ∧
      nextIs (fun t => decide (t.phase = .error)) (step (decoding [0xFF#8])) :=
  ⟨atHeader_started _, atChunk_decoding _, by decide⟩

theorem witness_EveryDecodeEnds :
    (decoding [0xFE#8, 1#8, 2#8, 3#8]).Inv ∧ (decoding [0xFE#8, 1#8, 2#8, 3#8]).AtChunk ∧
      nextIs (fun t => decide (t.phase ≠ .error)) (step (decoding [0xFE#8, 1#8, 2#8, 3#8])) :=
  ⟨inv_decoding, atChunk_decoding _, by decide⟩

/-- The lead bytes at the ends of each kind's range, with their operand bytes, at the cursor of a chunk step. -/
theorem witness_lead_bytes_of_each_kind :
    ∀ bs ∈ [[0xFE#8, 1#8, 2#8, 3#8], [0xFF#8, 1#8, 2#8, 3#8, 4#8], [0x00#8], [0x3F#8], [0x40#8], [0x7F#8], [0x80#8, 1#8],
      [0xBF#8, 1#8], [0xC0#8], [0xFD#8]],
      ∀ k, k < bs.length → (decoding bs).inByte ((decoding bs).pos + k) = bs[k]? := by decide

/-- Each truncated form of RGB, RGBA and LUMA, and a state of the invariant for INDEX's last clause. -/
theorem witness_chunks_cut_short :
    (decoding [0xFE#8, 1#8, 2#8]).len < (decoding [0xFE#8, 1#8, 2#8]).pos + 4 ∧
    (decoding [0xFF#8, 1#8, 2#8, 3#8]).len < (decoding [0xFF#8, 1#8, 2#8, 3#8]).pos + 5 ∧
    (decoding [0x80#8]).pos + 1 = (decoding [0x80#8]).len ∧ (decoding [0xFE#8, 1#8, 2#8, 3#8]).Inv :=
  ⟨by decide, by decide, by decide, inv_decoding⟩

theorem witness_RunRepeatsThePreviousPixel_clipped :
    (decoding []).count < (decoding []).n ∧ (decoding []).n - (decoding []).count < (4#6).toNat + 1 := by decide

theorem witness_ClippedIsStickyAndSetOnlyByALongRun :
    nextIs (fun _ => true) (step (failed.issue (.start []))) ∧
    ((decoding [0xC4#8]).hostCmd = none ∧ (decoding [0xC4#8]).count < (decoding [0xC4#8]).n ∧
      (decoding [0xC4#8]).clipped = false ∧ nextIs (fun t => t.clipped) (step (decoding [0xC4#8]))) ∧
    nextIs (fun t => t.clipped) (step { decoding [0xC0#8] with clipped := true }) ∧
    ((decoding []).n - (decoding []).count < (4#6).toNat + 1 ∧
      nextIs (fun _ => true) (exec (.run 4#6) (decoding []))) := by decide

theorem witness_ErrorRegistersTellWhatFailed : ∀ e : ErrKind, e ≠ .pixelCountExceeded → ∃ s, Reachable s ∧ s.errCode = e :=
  fun e h => if h0 : e = .noError then ⟨idle, reachable_idle, h0 ▸ rfl⟩ else reachable_errors e h0 h

theorem witness_ErrorEntryIsPrecise :
    (∀ s ∈ [decoding [], decoding [0xFF#8], started [], started (hdr 1#8 1#8 9#8 0#8)],
      s.hostCmd = none ∧ s.phase ≠ .error ∧ nextIs (fun t => decide (t.phase = .error)) (step s)) := by decide

theorem witness_OnlyErrorEntryWritesTheErrorRegisters :
    failed.hostCmd = none ∧ failed.phase = .error ∧ nextIs (fun _ => true) (step failed) ∧
    nextIs (fun t => decide (t.phase ≠ .error)) (step (decoding [0xC0#8])) := by decide

theorem witness_ErrorIsLeftByCommandOnly :
    failed.phase = .error ∧ failed.hostCmd = none ∧
    nextIs (fun t => decide (t.phase ≠ .error)) (step (failed.issue .reset)) ∧
    nextIs (fun t => decide (t.phase ≠ .error)) (step (failed.issue (.start []))) := by decide

/-- A (not reachable) state that holds the code, and a reachable one. -/
theorem witness_PixelCountExceededIsNeverRaised :
    nextIs (fun t => decide (t.errCode = .pixelCountExceeded))
      (step { failed with errCode := .pixelCountExceeded }) ∧ Reachable idle := ⟨by decide, reachable_idle⟩

theorem witness_EveryStartedDecodeSucceedsWholeOrFailsByName :
    idle.acceptsStart = true ∧ finished.acceptsStart = true ∧ failed.acceptsStart = true := by decide

theorem witness_EveryStepKeepsTheInvariant :
    (decoding [0xFE#8, 1#8, 2#8, 3#8]).Inv ∧ nextIs (fun _ => true) (step (decoding [0xFE#8, 1#8, 2#8, 3#8])) :=
  ⟨inv_decoding, by decide⟩

theorem witness_ReachableStatesSatisfyTheSixInvariants :
    Reachable idle ∧ ∃ s, Reachable s ∧ s.phase = .done ∧ s.count = 1 :=
  ⟨reachable_idle, by
    obtain ⟨s, h, hp, hc, -⟩ := reachable_done
    exact ⟨s, h, hp, hc⟩⟩

theorem witness_reachable_decode : ∃ s, Reachable s ∧ s.phase = .decode :=
  ⟨nextState (nextState (idle.issue (.start (hdr 1#8 1#8 4#8 0#8)))),
    reachable_next (reachable_next (.command _ reachable_idle)), by decide⟩

/-- A header above the capacity, and START while busy, from states of the invariant: the two refusals. -/
theorem witness_NoFaultAndOnlyTheNamedRefusals :
    (decoding [0xFE#8, 1#8, 2#8, 3#8]).Inv ∧
    (match step (started (hdr 40#8 40#8 4#8 0#8)) with
      | .refused .outCapacityExceeded => true
      | _ => false) = true ∧
    (match step ((decoding []).issue (.start [])) with
      | .refused .startWhileBusy => true
      | _ => false) = true := ⟨inv_decoding, by decide, by decide⟩

end Sys2Proof.Tests
end

section
/-! SUPPORT. What a fresh state is made by, that the invariant holds of it, and that every step keeps the invariant
(10_state.md R33, R34). -/

namespace Sys2Proof.Machine

/-! ### Fresh states: RESET and START -/

theorem State.hostReset_fresh (s : State) : s.hostReset.Fresh :=
  ⟨rfl, rfl, rfl, rfl, rfl, rfl, rfl, rfl, State.cacheRead_replicate rfl, rfl, rfl, rfl, rfl, rfl⟩

theorem State.start_fresh (s : State) (bytes : List Byte) : (s.start bytes).Fresh :=
  ⟨rfl, rfl, rfl, rfl, rfl, rfl, rfl, rfl, State.cacheRead_replicate rfl, rfl, rfl, rfl, rfl, rfl⟩

/-- After START the input is the host's bytes, and nothing at or above their number. -/
theorem State.start_inByte (s : State) (bytes : List Byte) (i : Nat) : (s.start bytes).inByte i = bytes[i]? := by
  rw [State.inByte, State.start_len, State.start_input, Memory.read_ofBytes]
  split
  · next h => simp [List.getElem?_eq_getElem h]
  · next h => simp [List.getElem?_eq_none (Nat.le_of_not_lt h)]

theorem step_reset_next {s t : State} (hc : s.hostCmd = some .reset) (h : step s = .next t) : t = s.hostReset := by
  rw [step_reset hc] at h; cases h; rfl

/-- START that is not refused is the rewriting of every element. -/
theorem step_start_next {s t : State} {bytes : List Byte} (hc : s.hostCmd = some (.start bytes))
    (h : step s = .next t) : t = s.start bytes := by
  rw [step_start hc] at h
  split at h <;> cases h
  rfl

/-! ### The invariant of each next state -/

/-- With no error recorded, the error registers' record is that they are zero. -/
theorem State.recordsError_of_noError {s : State} (h : s.errCode = .noError) :
    s.RecordsError ↔ s.errField = 0#2 ∧ s.errValue = 0#32 := by
  simp only [State.RecordsError, h]

/-- A fresh state before the header is read satisfies the invariant, whatever canonical input it has. -/
theorem State.Fresh.inv {s : State} (h : s.Fresh) (hp : s.phase = .idle ∨ s.phase = .header)
    (hw : Memory.wf s.input) (hb : ∀ x ∈ s.input, x.1 < s.len) : s.Inv where
  memoryWf := hw
  memoryBelow := hb
  totalFits := by simp [h.n]
  countLe := by simp [State.count, h.out]
  posLe := by simp [h.pos]
  unstarted _ := h
  streamOpen hq := by rcases hp with hp | hp <;> simp [hp] at hq
  decodeCount hq := by rcases hp with hp | hp <;> simp [hp] at hq
  doneCount hq := by rcases hp with hp | hp <;> simp [hp] at hq
  cachePrev := (h.cache _).trans h.prev.symm
  cacheSlots i := .inl (h.cache i)
  errorPhase := by rcases hp with hp | hp <;> simp [hp, h.errCode]
  errorRecord := (State.recordsError_of_noError h.errCode).2 ⟨h.errField, h.errValue⟩
  clippedEnds hc := by simp [h.clipped] at hc

theorem State.hostReset_inv {s : State} (hw : Memory.wf s.input) (hb : ∀ x ∈ s.input, x.1 < s.len) :
    s.hostReset.Inv :=
  s.hostReset_fresh.inv (.inl rfl) hw hb

theorem State.start_inv (s : State) (bytes : List Byte) : (s.start bytes).Inv :=
  (s.start_fresh bytes).inv (.inr rfl) (Memory.ofBytes_wf bytes) (Memory.ofBytes_below bytes)

/-- Error entry, whatever a header step has read into the header registers before it, keeps the invariant if the error
raised is what the state shows. -/
theorem State.Inv.writeHeader_raise {s : State} (h : s.Inv) (hp : s.phase ≠ .done) {m w ht : Word} {ch cs : Byte}
    {e : ErrKind} {f : BitVec 2} {v : Word} (he : e ≠ .noError)
    (hr : ((s.writeHeader m w ht ch cs).raise e f v).RecordsError) :
    ((s.writeHeader m w ht ch cs).raise e f v).Inv where
  memoryWf := h.memoryWf
  memoryBelow := h.memoryBelow
  totalFits := h.totalFits
  countLe := h.countLe
  posLe := h.posLe
  unstarted hq := by simp at hq
  streamOpen hq := by simp at hq
  decodeCount hq := by simp at hq
  doneCount hq := by simp at hq
  cachePrev := h.cachePrev
  cacheSlots := h.cacheSlots
  errorPhase := by simp [he]
  errorRecord := hr
  clippedEnds hc := absurd (h.clippedEnds hc) hp

/-- Error entry keeps the invariant if the error raised is what the state shows. -/
theorem State.Inv.raise {s : State} (h : s.Inv) (hp : s.phase ≠ .done) {e : ErrKind} {f : BitVec 2} {v : Word}
    (he : e ≠ .noError) (hr : (s.raise e f v).RecordsError) : (s.raise e f v).Inv :=
  h.writeHeader_raise (m := s.hdrMagic) (w := s.hdrWidth) (ht := s.hdrHeight) (ch := s.hdrChannels)
    (cs := s.hdrColorspace) hp he hr

/-- `raise` touches nothing an open stream speaks of. -/
theorem State.StreamOpen.raise {s : State} (h : s.StreamOpen) (e : ErrKind) (f : BitVec 2) (v : Word) :
    (s.raise e f v).StreamOpen :=
  ⟨⟨h.header.magic, h.header.channels, h.header.colorspace⟩, h.total, h.pos⟩

theorem State.Inv.raise_malformedHeader {s : State} (h : s.Inv) (hp : s.phase = .header) (hl : s.len < 14) :
    (s.raise .malformedHeader 0#2 0#32).Inv := by
  have hf := h.unstarted (.inr hp)
  exact h.raise (by simp [hp]) (by simp)
    ⟨hl, rfl, rfl, hf.pos, hf.out, hf.hdrMagic, hf.hdrWidth, hf.hdrHeight, hf.hdrChannels, hf.hdrColorspace⟩

theorem State.Inv.raise_invalidHeaderField {s : State} (h : s.Inv) (hp : s.phase = .header) {m w ht : Word}
    {ch cs : Byte} {f : BitVec 2} {v : Word} (hv : invalidField m ch cs = some (f, v)) :
    ((s.writeHeader m w ht ch cs).raise .invalidHeaderField f v).Inv := by
  have hf := h.unstarted (.inr hp)
  exact h.writeHeader_raise (by simp [hp]) (by simp) ⟨hf.pos, hf.out, invalidField_eq_some hv⟩

theorem State.Inv.raise_pixelCountShort {s : State} (h : s.Inv) (hp : s.phase = .decode) (he : s.pos = s.len) :
    (s.raise .pixelCountShort 0#2 0#32).Inv :=
  h.raise (by simp [hp]) (by simp)
    ⟨(h.streamOpen (.inl hp)).raise _ _ _, h.decodeCount hp, rfl, rfl, he⟩

theorem State.Inv.raise_truncatedStream {s : State} (h : s.Inv) (hp : s.phase = .decode) {b0 : Byte}
    (hb : s.inByte s.pos = some b0) (hl : s.len < s.pos + chunkLen b0) :
    (s.raise .truncatedStream 0#2 (b0.setWidth 32)).Inv :=
  h.raise (by simp [hp]) (by simp)
    ⟨(h.streamOpen (.inl hp)).raise _ _ _, h.decodeCount hp, rfl, b0, hb, rfl, hl⟩

/-- The phase a header or a chunk leaves, DONE on a test and DECODE otherwise, tells how the test went. -/
theorem ite_done_decode_eq_done {c : Prop} [Decidable c] : (if c then Phase.done else .decode) = .done ↔ c := by
  simp

theorem ite_done_decode_eq_decode {c : Prop} [Decidable c] : (if c then Phase.done else .decode) = .decode ↔ ¬ c := by
  simp

/-- A legal header of a fresh state opens the stream; with no pixels declared it ends the decode. -/
theorem State.Inv.openStream {s : State} (h : s.Inv) (hp : s.phase = .header) (hl : 14 ≤ s.len) {m w ht : Word}
    {ch cs : Byte} (hv : invalidField m ch cs = none) (hc : w.toNat * ht.toNat ≤ s.outCapacity) :
    ((s.writeHeader m w ht ch cs).openStream (w.toNat * ht.toNat)).Inv := by
  have hf := h.unstarted (.inr hp)
  obtain ⟨hm, hch, hcs⟩ := (invalidField_eq_none m ch cs).1 hv
  have hcount : ((s.writeHeader m w ht ch cs).openStream (w.toNat * ht.toNat)).count = 0 := by
    simp [State.count, hf.out]
  have hphase : ((s.writeHeader m w ht ch cs).openStream (w.toNat * ht.toNat)).phase =
      if w.toNat * ht.toNat = 0 then .done else .decode := rfl
  exact {
    memoryWf := h.memoryWf
    memoryBelow := h.memoryBelow
    totalFits := hc
    countLe := by simp [hcount]
    posLe := hl
    unstarted hq := by rw [hphase] at hq; split at hq <;> simp at hq
    streamOpen _ := ⟨⟨hm, hch, hcs⟩, rfl, le_rfl⟩
    decodeCount hq := by
      have hne : ¬ w.toNat * ht.toNat = 0 := ite_done_decode_eq_decode.1 (hphase.symm.trans hq)
      rw [hcount]
      exact Nat.pos_of_ne_zero hne
    doneCount hq := by
      have heq : w.toNat * ht.toNat = 0 := ite_done_decode_eq_done.1 (hphase.symm.trans hq)
      rw [hcount]
      exact heq.symm
    cachePrev := h.cachePrev
    cacheSlots := h.cacheSlots
    errorPhase := by rw [hphase]; split <;> simp [hf.errCode]
    errorRecord := (State.recordsError_of_noError (by simpa using hf.errCode)).2 ⟨hf.errField, hf.errValue⟩
    clippedEnds hq := by simp [hf.clipped] at hq }

/-- The end of a chunk within the input keeps the invariant: `COUNT` stays at or below `N`, and DONE is entered exactly
when it reaches `N`, which a clipped chunk makes it do. -/
theorem State.Inv.completeChunk {s : State} (h : s.Inv) (hp : s.phase = .decode) (p : Pixel) (k : Nat) {n : Nat}
    (hl : s.pos + n ≤ s.len) : (s.completeChunk p k n).Inv := by
  have hcount := s.completeChunk_count p k n
  have hkept := s.kept_le_needed k
  have hlt := h.decodeCount hp
  obtain ⟨⟨hm, hch, hcs⟩, htotal, hpos⟩ := h.streamOpen (.inl hp)
  have hnone := h.noError (by simp [hp])
  have hphase : (s.completeChunk p k n).phase = if s.count + s.kept k = s.n then .done else .decode := by
    rw [State.completeChunk_phase, hp, State.count]
  exact {
    memoryWf := by simpa using h.memoryWf
    memoryBelow := by simpa using h.memoryBelow
    totalFits := by simpa using h.totalFits
    countLe := by rw [hcount, State.completeChunk_n]; omega
    posLe := by simpa using hl
    unstarted hq := by rw [hphase] at hq; split at hq <;> simp at hq
    streamOpen _ := ⟨⟨by simpa using hm, by simpa using hch, by simpa using hcs⟩, by simpa using htotal, by simp; omega⟩
    decodeCount hq := by
      have hne : ¬ s.count + s.kept k = s.n := ite_done_decode_eq_decode.1 (hphase.symm.trans hq)
      rw [hcount, State.completeChunk_n]
      omega
    doneCount hq := by
      have heq : s.count + s.kept k = s.n := ite_done_decode_eq_done.1 (hphase.symm.trans hq)
      rw [hcount, State.completeChunk_n, heq]
    cachePrev := by simp [State.completeChunk_cacheRead]
    cacheSlots i := by
      rw [State.completeChunk_cacheRead]
      split
      · next hi => exact .inr hi.symm
      · exact h.cacheSlots i
    errorPhase := by rw [hphase]; split <;> simp [hnone]
    errorRecord := by
      have hrec := (State.recordsError_of_noError hnone).1 h.errorRecord
      exact (State.recordsError_of_noError (by simpa using hnone)).2 (by simpa using hrec)
    clippedEnds hq := by
      have hunclipped : s.clipped = false := by
        by_contra hc
        simp [h.clippedEnds (by simpa using hc)] at hp
      have hcut : s.kept k < k := by simpa [State.clippedAfter, hunclipped] using hq
      have hall : s.count + s.kept k = s.n := by
        simp only [State.kept, State.needed] at hcut ⊢
        omega
      rw [hphase, if_pos hall] }

/-! ### Every step, every reachable state -/

/-- A step that takes no command keeps the invariant: one lemma for each of its next states. -/
theorem State.Inv.step_of_no_cmd {s t : State} (h : s.Inv) (hn : s.hostCmd = none) (hs : step s = .next t) :
    t.Inv := by
  rcases step_next_cases hn hs with ⟨-, rfl⟩ | ⟨hp, hl, rfl⟩ | ⟨hp, -, m, w, ht, ch, cs, f, v, hv, rfl⟩ |
    ⟨hp, hl, m, w, ht, ch, cs, hv, hc, rfl⟩ | ⟨hp, he, rfl⟩ | ⟨hp, b0, hb, hl, rfl⟩ |
    ⟨hp, b0, i, -, hl, -, -, -, -, rfl⟩
  · exact h
  · exact h.raise_malformedHeader hp hl
  · exact h.raise_invalidHeaderField hp hv
  · exact h.openStream hp hl hv hc
  · exact h.raise_pixelCountShort hp he
  · exact h.raise_truncatedStream hp hb hl
  · exact h.completeChunk hp _ _ hl

/-- Every step, a command taken among them, keeps the invariant. -/
theorem State.Inv.step_next {s t : State} (h : s.Inv) (hs : step s = .next t) : t.Inv := by
  match hn : s.hostCmd with
  | none => exact h.step_of_no_cmd hn hs
  | some .reset =>
    rw [step_reset_next hn hs]
    exact State.hostReset_inv h.memoryWf h.memoryBelow
  | some (.start bytes) =>
    rw [step_start_next hn hs]
    exact s.start_inv bytes

theorem State.reset_inv (capacity : Nat) : State.Inv { State.reset with outCapacity := capacity } :=
  State.hostReset_inv (s := { State.reset with outCapacity := capacity }) Memory.wf_nil (by simp [State.reset])

/-- The invariant holds of every reachable state. -/
theorem Reachable.inv {s : State} (h : Reachable s) : s.Inv := by
  induction h with
  | reset capacity => exact State.reset_inv capacity
  | command c _ ih => exact ih.issue c
  | step _ hs ih => exact ih.step_next hs

end Sys2Proof.Machine
end

section
/-! PROOFS. The statements of 10_state.md: the values after RESET and START (R33), the cursor (R24), `CLIPPED` (R28) and
the six invariants (R34). -/

namespace Sys2Proof.Machine

/-! ### The six invariants (R34) -/

/-- An open stream stands behind every state in which pixels can have been appended. -/
theorem State.Inv.total_eq {s : State} (h : s.Inv)
    (hp : s.phase = .decode ∨ s.phase = .done ∨ s.errCode = .truncatedStream ∨ s.errCode = .pixelCountShort) :
    s.n = s.hdrWidth.toNat * s.hdrHeight.toNat := by
  have hr := h.errorRecord
  unfold State.RecordsError at hr
  rcases hp with hp | hp | hp | hp
  · exact (h.streamOpen (.inl hp)).total
  · exact (h.streamOpen (.inr hp)).total
  · rw [hp] at hr; exact hr.1.total
  · rw [hp] at hr; exact hr.1.total

/-- Settles O56: every reachable state satisfies the machine's invariant, which holds the six items. -/
theorem reachableStatesSatisfyTheSixInvariants : Obligations.ReachableStatesSatisfyTheSixInvariants := by
  intro s hr
  have h := hr.inv
  exact ⟨fun hp => ⟨h.countLe, h.total_eq hp⟩, h.decodeCount, h.doneCount, h.cachePrev, h.cacheSlots,
    fun hp => ⟨(h.streamOpen hp).pos, h.posLe⟩⟩

/-! ### RESET and START (R33) -/

/-- Settles O4: RESET and START leave a fresh state, START with the host's bytes as input. -/
theorem resetAndStartValues : Obligations.ResetAndStartValues := by
  refine ⟨⟨rfl, State.reset.hostReset_fresh⟩, fun s t hs => ⟨fun hc => ?_, fun bytes hc => ?_⟩⟩
  · rw [step_reset_next hc hs]
    exact ⟨rfl, s.hostReset_fresh⟩
  · rw [step_start_next hc hs]
    exact ⟨rfl, s.start_fresh bytes, rfl, s.start_inByte bytes⟩

/-! ### The cursor (R24) -/

/-- A header step raises and leaves the cursor, or sets it to 14 with at least 14 bytes present. -/
theorem step_header_pos {s t : State} (hs : s.AtHeader) (h : step s = .next t) :
    (t.phase = .error ∧ t.pos = s.pos) ∨ (t.pos = 14 ∧ t.pos ≤ t.len) := by
  rcases step_header_cases hs with ⟨-, e⟩ | ⟨hl, m, w, ht, ch, cs, -, -, ⟨f, v, -, e⟩ | ⟨-, -, e⟩ | ⟨-, -, e⟩⟩ <;>
    rw [e] at h <;> cases h
  · exact .inl ⟨rfl, rfl⟩
  · exact .inl ⟨rfl, rfl⟩
  · exact .inr ⟨rfl, hl⟩

/-- A chunk step raises and leaves the cursor, or moves it past its own chunk, which lies within the input. -/
theorem step_chunk_pos {s t : State} (hs : s.AtChunk) (h : step s = .next t) :
    (t.phase = .error ∧ t.pos = s.pos) ∨
    (∃ b0, s.inByte s.pos = some b0 ∧ t.pos = s.pos + chunkLen b0 ∧ t.pos ≤ t.len ∧ s.pos < t.pos) := by
  rcases step_chunk_cases hs with ⟨-, e⟩ | ⟨-, e⟩ | ⟨b0, -, -, e⟩ | ⟨b0, i, hb, hl, -, -, -, -, e, -⟩ <;>
    rw [e] at h <;> cases h
  · exact .inl ⟨rfl, rfl⟩
  · exact .inl ⟨rfl, rfl⟩
  · have hlen := chunkLen_pos b0
    exact .inr ⟨b0, hb, by simp, by simpa using hl, by simp; omega⟩

/-- Settles O39: the cursor after a header step and after a chunk step. -/
theorem cursorMovesForwardByTheChunkLength : Obligations.CursorMovesForwardByTheChunkLength :=
  ⟨fun _ _ => step_header_pos, fun _ _ => step_chunk_pos⟩

/-! ### `CLIPPED` (R28) -/

/-- A step without a command that does not complete a chunk leaves `CLIPPED`; a chunk completed leaves what its repeat
count makes of it. -/
theorem step_clipped {s t : State} (hn : s.hostCmd = none) (h : step s = .next t) :
    t.clipped = s.clipped ∨
    (s.phase = .decode ∧ ∃ i : Instr, i.place = .chunk ∧ step s = exec i s ∧
      t.clipped = s.clippedAfter (repeats i)) := by
  rcases step_next_cases hn h with ⟨-, rfl⟩ | ⟨-, -, rfl⟩ | ⟨-, -, m, w, ht, ch, cs, f, v, -, rfl⟩ |
    ⟨-, -, m, w, ht, ch, cs, -, -, rfl⟩ | ⟨-, -, rfl⟩ | ⟨-, b0, -, -, rfl⟩ | ⟨hp, b0, i, -, -, hi, -, -, he, rfl⟩
  · exact .inl rfl
  · exact .inl rfl
  · exact .inl rfl
  · exact .inl rfl
  · exact .inl rfl
  · exact .inl rfl
  · exact .inr ⟨hp, i, hi, he, State.completeChunk_clipped _ _ _ _⟩

/-- A chunk of repeat count `k` discards pixels exactly when it has more than are needed. -/
theorem State.kept_lt_iff (s : State) (k : Nat) : s.kept k < k ↔ s.n - s.count < k := by
  simp only [State.kept, State.needed]; omega

/-- Only a RUN repeats more than once. -/
theorem repeats_eq_one_or_run {i : Instr} (h : i.place = .chunk) : repeats i = 1 ∨ ∃ n, i = .run n := by
  cases i with
  | header => simp [Instr.place] at h
  | run n => exact .inr ⟨n, rfl⟩
  | _ => exact .inl rfl

/-- While pixels are needed, the only chunk that discards some is a RUN longer than their number. -/
theorem run_of_kept_lt {s : State} {i : Instr} (hi : i.place = .chunk) (hc : s.count < s.n)
    (hk : s.kept (repeats i) < repeats i) : ∃ n : BitVec 6, i = .run n ∧ s.n - s.count < n.toNat + 1 := by
  rw [State.kept_lt_iff] at hk
  rcases repeats_eq_one_or_run hi with h1 | ⟨n, rfl⟩
  · omega
  · exact ⟨n, rfl, hk⟩

/-- A RUN longer than the pixels needed sets `CLIPPED`. -/
theorem exec_run_sets_clipped {s t : State} {n : BitVec 6} (h : exec (.run n) s = .next t)
    (hk : s.n - s.count < n.toNat + 1) : t.clipped = true := by
  have hcut := (s.kept_lt_iff (repeats (.run n))).2 hk
  rw [exec_chunk rfl] at h
  cases h
  simp [State.clippedAfter, hcut]

/-- A state with `CLIPPED` at a value of one's choice. -/
def State.withClipped (s : State) (c : Bool) : State := { s with clipped := c }

/-- The end of a chunk does not read `CLIPPED`. -/
theorem State.completeChunk_withClipped (s : State) (c : Bool) (p : Pixel) (k n : Nat) :
    ((s.withClipped c).completeChunk p k n).withClipped false = (s.completeChunk p k n).withClipped false := by
  simp only [State.completeChunk, State.terminate_eq]
  rfl

/-- No instruction reads `CLIPPED`. -/
theorem exec_withClipped (i : Instr) (s : State) (c : Bool) :
    onNext (·.withClipped false) (exec i (s.withClipped c)) = onNext (·.withClipped false) (exec i s) := by
  by_cases hi : i.place = .chunk
  · rw [exec_chunk hi, exec_chunk hi, produced_congr (s' := s) rfl rfl]
    exact congrArg Host.Outcome.next (s.completeChunk_withClipped c _ _ _)
  · cases i with
    | header m w h ch cs =>
      rcases exec_header_cases m w h ch cs s with ⟨f, v, hv, e⟩ | ⟨hv, hc, e⟩ | ⟨hv, hc, e⟩ <;> rw [e]
      · rw [exec_header_raises hv]; rfl
      · rw [exec_header_opens (s := s.withClipped c) hv hc]; rfl
      · rw [exec_header_refused (s := s.withClipped c) hv hc]
    | _ => simp [Instr.place] at hi

/-- Running what was fetched does not read `CLIPPED`. -/
theorem runFetched_withClipped (f : Fetched) (s : State) (c : Bool) :
    onNext (·.withClipped false) (runFetched f (s.withClipped c)) = onNext (·.withClipped false) (runFetched f s) := by
  cases f with
  | runs i => exact exec_withClipped i s c
  | raises e f v => rfl
  | stops r => rfl

/-- No step without a command reads `CLIPPED`: neither what is fetched nor what is run depends on it. -/
theorem step_withClipped {s : State} (hn : s.hostCmd = none) (c : Bool) :
    onNext (·.withClipped false) (step (s.withClipped c)) = onNext (·.withClipped false) (step s) := by
  have hn' : (s.withClipped c).hostCmd = none := hn
  have waits (hp : s.phase = .idle ∨ s.phase = .done ∨ s.phase = .error) :
      onNext (·.withClipped false) (step (s.withClipped c)) = onNext (·.withClipped false) (step s) := by
    rw [step_waits hn hp, step_waits hn' hp]; rfl
  cases hp : s.phase with
  | idle => exact waits (.inl hp)
  | done => exact waits (.inr (.inl hp))
  | error => exact waits (.inr (.inr hp))
  | header =>
    rw [step_header ⟨hp, hn⟩, step_header (s := s.withClipped c) ⟨hp, hn'⟩,
      fetchHeader_congr (s := s) (t := s.withClipped c) rfl fun _ _ => rfl]
    exact runFetched_withClipped _ s c
  | decode =>
    rw [step_chunk ⟨hp, hn⟩, step_chunk (s := s.withClipped c) ⟨hp, hn'⟩,
      fetchChunk_congr (s := s) (t := s.withClipped c) rfl rfl fun _ _ => rfl]
    exact runFetched_withClipped _ s c

/-- Settles O47: START clears `CLIPPED`, a chunk completed only ever adds to it, and no step reads it. -/
theorem clippedIsStickyAndSetOnlyByALongRun : Obligations.ClippedIsStickyAndSetOnlyByALongRun := by
  refine ⟨fun s t bytes hc hs => ?start, fun s t hn hlt hs => ?sticky, fun s n t _ hs hk => exec_run_sets_clipped hs hk,
    fun s c hn => step_withClipped hn c⟩
  case start => rw [step_start_next hc hs]; rfl
  case sticky =>
    rcases step_clipped hn hs with hcl | ⟨hp, i, hi, he, hcl⟩ <;> rw [hcl]
    · exact ⟨id, fun h0 h1 => absurd (h0.symm.trans h1) (by decide)⟩
    · refine ⟨fun h0 => by simp [State.clippedAfter, h0], fun h0 h1 => ⟨hp, ?_⟩⟩
      have hcut : s.kept (repeats i) < repeats i := by simpa [State.clippedAfter, h0] using h1
      obtain ⟨n, rfl, hk⟩ := run_of_kept_lt hi (hlt hp) hcut
      exact ⟨n, hk, he⟩

end Sys2Proof.Machine
end

section
/-! PROOFS. The statements of 20_memory.md, the memory spaces: big-endian header fields (R51), reads below `L` (R55), the
input never written (R56), the output appended (R57) and its handover (R59). -/

namespace Sys2Proof.Machine

/-! ### Big-endian header fields (R51) -/

/-- The header step's fetch, once 14 bytes are present, gives the header these bytes spell. -/
theorem fetchHeader_of_le {s : State} (h : 14 ≤ s.len) : fetchHeader s = .runs (.header
    (be32 (Memory.read s.input 0) (Memory.read s.input 1) (Memory.read s.input 2) (Memory.read s.input 3))
    (be32 (Memory.read s.input 4) (Memory.read s.input 5) (Memory.read s.input 6) (Memory.read s.input 7))
    (be32 (Memory.read s.input 8) (Memory.read s.input 9) (Memory.read s.input 10) (Memory.read s.input 11))
    (Memory.read s.input 12) (Memory.read s.input 13)) := by
  have hlen : ¬ s.len < Config.hdrLen := Nat.not_lt.2 h
  have hread : s.memRead 0 Config.hdrLen = some (Memory.readBytes s.input 0 14) := State.memRead_of_le (a := 0) h
  rw [fetchHeader, if_neg hlen, hread]
  rfl

/-- A big-endian word is the weighted sum of its bytes. -/
theorem be32_eq_ofNat (b0 b1 b2 b3 : Byte) :
    be32 b0 b1 b2 b3 =
      BitVec.ofNat 32 (b0.toNat * 2 ^ 24 + b1.toNat * 2 ^ 16 + b2.toNat * 2 ^ 8 + b3.toNat) := by
  rw [← be32_toNat, BitVec.ofNat_toNat, BitVec.setWidth_eq]

/-- Settles O24: the bytes fetched are those at 0 to 13, and `be32` is the weighted sum of its four. -/
theorem headerStepReadsItsFieldsBigEndian : Obligations.HeaderStepReadsItsFieldsBigEndian := by
  intro s b hs hl hb
  have hread : ∀ i, i < 14 → Memory.read s.input i = b i := fun i hi => (State.inByte_eq_some.1 (hb i hi)).2
  rw [step_header hs, fetchHeader_of_le hl]
  simp only [runFetched, hread, Nat.reduceLT, be32_eq_ofNat]

/-! ### The input is not written (R56) -/

/-- A step without a command completes a chunk, or leaves `IN`, `L` and `OUT`. -/
theorem step_completes_or_keeps {s t : State} (hn : s.hostCmd = none) (h : step s = .next t) :
    (t.input = s.input ∧ t.len = s.len ∧ t.out = s.out) ∨
    (s.phase = .decode ∧ ∃ (i : Instr) (n : Nat), i.wellFormed = true ∧
      t = s.completeChunk (produced s i) (repeats i) n) := by
  rcases step_next_cases hn h with ⟨-, rfl⟩ | ⟨-, -, rfl⟩ | ⟨-, -, m, w, ht, ch, cs, f, v, -, rfl⟩ |
    ⟨-, -, m, w, ht, ch, cs, -, -, rfl⟩ | ⟨-, -, rfl⟩ | ⟨-, b0, -, -, rfl⟩ | ⟨hp, b0, i, -, -, -, hw, -, -, rfl⟩
  · exact .inl ⟨rfl, rfl, rfl⟩
  · exact .inl ⟨rfl, rfl, rfl⟩
  · exact .inl ⟨rfl, rfl, rfl⟩
  · exact .inl ⟨rfl, rfl, rfl⟩
  · exact .inl ⟨rfl, rfl, rfl⟩
  · exact .inl ⟨rfl, rfl, rfl⟩
  · exact .inr ⟨hp, i, _, hw, rfl⟩

/-- A step without a command leaves `IN` and `L`. -/
theorem step_input_len {s t : State} (hn : s.hostCmd = none) (h : step s = .next t) :
    t.input = s.input ∧ t.len = s.len := by
  rcases step_completes_or_keeps hn h with ⟨hi, hl, -⟩ | ⟨-, i, n, -, rfl⟩
  · exact ⟨hi, hl⟩
  · exact ⟨State.completeChunk_input _ _ _ _, State.completeChunk_len _ _ _ _⟩

/-- Settles O9: no next state of a step without a command has another `IN` or another `L`. -/
theorem noStepOfTheBlockWritesTheInput : Obligations.NoStepOfTheBlockWritesTheInput := by
  intro s t hn h
  obtain ⟨hi, hl⟩ := step_input_len hn h
  exact ⟨hi, hl, State.inByte_congr hi hl⟩

/-! ### Steps that go alike from two states -/

/-- The end of a chunk step as one update of the state. -/
theorem State.completeChunk_eq (s : State) (p : Pixel) (k n : Nat) : s.completeChunk p k n =
    { s with
      clipped := s.clippedAfter k
      out := s.out ++ List.replicate (s.kept k) p
      prev := p
      cache := s.cache.set (pixelHash p).toNat p (pixelHash p).isLt
      pos := s.pos + n
      phase := if s.out.length + s.kept k = s.n then .done else s.phase } := by
  simp [State.completeChunk, State.terminate_eq, State.commit, State.count]

/-- What the block does from `s'` is what it does from `s`, carried over by `g`: the two fetch alike, and waiting, error
entry and every instruction commute with `g`. -/
structure Mirrors (g : State → State) (s s' : State) : Prop where
  phase : s'.phase = s.phase
  hostCmd : s'.hostCmd = s.hostCmd
  fetchHeader : Machine.fetchHeader s' = Machine.fetchHeader s
  fetchChunk : Machine.fetchChunk s' = Machine.fetchChunk s
  waits : s' = g s
  raises : ∀ e f v, s'.raise e f v = g (s.raise e f v)
  execs : ∀ i, exec i s' = onNext g (exec i s)

theorem Mirrors.runFetched {g : State → State} {s s' : State} (h : Mirrors g s s') (f : Fetched) :
    runFetched f s' = onNext g (runFetched f s) := by
  cases f with
  | runs i => exact h.execs i
  | raises e f v => exact congrArg Host.Outcome.next (h.raises e f v)
  | stops r => rfl

/-- A step without a command commutes with whatever fetching, waiting, error entry and the instructions commute with. -/
theorem Mirrors.step {g : State → State} {s s' : State} (h : Mirrors g s s') (hn : s.hostCmd = none) :
    step s' = onNext g (step s) := by
  have hn' : s'.hostCmd = none := h.hostCmd.trans hn
  have waits (hp : s.phase = .idle ∨ s.phase = .done ∨ s.phase = .error) :
      Machine.step s' = onNext g (Machine.step s) := by
    rw [step_waits hn hp, step_waits hn' (h.phase ▸ hp)]
    exact congrArg Host.Outcome.next h.waits
  cases hp : s.phase with
  | idle => exact waits (.inl hp)
  | done => exact waits (.inr (.inl hp))
  | error => exact waits (.inr (.inr hp))
  | header =>
    rw [step_header ⟨hp, hn⟩, step_header ⟨h.phase.trans hp, hn'⟩, h.fetchHeader]
    exact h.runFetched _
  | decode =>
    rw [step_chunk ⟨hp, hn⟩, step_chunk ⟨h.phase.trans hp, hn'⟩, h.fetchChunk]
    exact h.runFetched _

/-- The instructions commute with `g` if the header's two results and the end of a chunk do, the pixels produced and the
output capacity being the same. -/
theorem exec_mirrors {g : State → State} {s s' : State} (hprev : s'.prev = s.prev) (hcache : s'.cache = s.cache)
    (hcap : s'.outCapacity = s.outCapacity)
    (hraise : ∀ m w h ch cs e f v,
      (s'.writeHeader m w h ch cs).raise e f v = g ((s.writeHeader m w h ch cs).raise e f v))
    (hopen : ∀ m w h ch cs k, (s'.writeHeader m w h ch cs).openStream k = g ((s.writeHeader m w h ch cs).openStream k))
    (hchunk : ∀ p k n, s'.completeChunk p k n = g (s.completeChunk p k n)) (i : Instr) :
    exec i s' = onNext g (exec i s) := by
  by_cases hi : i.place = .chunk
  · rw [exec_chunk hi, exec_chunk hi, produced_congr hprev hcache, hchunk]
    rfl
  · cases i with
    | header m w h ch cs =>
      rcases exec_header_cases m w h ch cs s with ⟨f, v, hv, e⟩ | ⟨hv, hc, e⟩ | ⟨hv, hc, e⟩ <;> rw [e]
      · rw [exec_header_raises hv, hraise]; rfl
      · rw [exec_header_opens hv (hcap ▸ hc), hopen]; rfl
      · rw [exec_header_refused hv (hcap ▸ hc)]; rfl
    | _ => simp [Instr.place] at hi

/-! ### Nothing is read at or above `L` (R55) -/

/-- A state with another memory behind `IN`. -/
def State.withInput (s : State) (m : Memory) : State := { s with input := m }

theorem State.completeChunk_withInput (s : State) (m : Memory) (p : Pixel) (k n : Nat) :
    (s.withInput m).completeChunk p k n = (s.completeChunk p k n).withInput m := by
  rw [State.completeChunk_eq, State.completeChunk_eq]
  rfl

/-- A memory that reads alike below `L` goes the same way, and stays. -/
theorem State.withInput_mirrors {s : State} {m : Memory}
    (h : ∀ a, a < s.len → Memory.read m a = Memory.read s.input a) :
    Mirrors (·.withInput m) s (s.withInput m) where
  phase := rfl
  hostCmd := rfl
  fetchHeader := fetchHeader_congr rfl h
  fetchChunk := fetchChunk_congr rfl rfl h
  waits := rfl
  raises _ _ _ := rfl
  execs := exec_mirrors rfl rfl rfl (fun _ _ _ _ _ _ _ _ => rfl) (fun _ _ _ _ _ _ => rfl) (s.completeChunk_withInput m)

theorem fetchHeader_short {s : State} (h : s.len < 14) : fetchHeader s = .raises .malformedHeader 0#2 0#32 := if_pos h

theorem fetchChunk_at_end {s : State} (h : s.pos = s.len) : fetchChunk s = .raises .pixelCountShort 0#2 0#32 := if_pos h

theorem fetchChunk_truncated {s : State} {b0 : Byte} (hb : s.inByte s.pos = some b0) (hl : s.len < s.pos + chunkLen b0) :
    fetchChunk s = .raises .truncatedStream 0#2 (b0.setWidth 32) := by
  have hlt : s.pos < s.len := (State.inByte_eq_some.1 hb).1
  rw [fetchChunk, if_neg hlt.ne, hb]
  exact if_pos hl

/-- Settles O10: fetching alone reads `IN`, and it reads below `L`; each of its three checks raises. -/
theorem nothingIsReadAtOrAboveTheLength : Obligations.NothingIsReadAtOrAboveTheLength := by
  refine ⟨fun s m h hn => (State.withInput_mirrors h).step hn, fun s hs hl => ?short, fun s hs he => ?ended,
    fun s b0 hs hb hl => ?truncated⟩
  case short => exact ⟨_, by rw [step_header hs, fetchHeader_short hl]; rfl, rfl⟩
  case ended => exact ⟨_, by rw [step_chunk hs, fetchChunk_at_end he]; rfl, rfl⟩
  case truncated => exact ⟨_, by rw [step_chunk hs, fetchChunk_truncated hb hl]; rfl, rfl⟩

/-! ### The output is appended (R57) -/

/-- A step without a command appends to `OUT` at most 62 copies of the new `PREV`, and none outside a chunk step. -/
theorem step_appends {s t : State} (hn : s.hostCmd = none) (h : step s = .next t) :
    ∃ m, m ≤ 62 ∧ t.out = s.out ++ List.replicate m t.prev ∧ (s.phase ≠ .decode → m = 0) := by
  rcases step_completes_or_keeps hn h with ⟨-, -, ho⟩ | ⟨hp, i, n, hw, rfl⟩
  · exact ⟨0, by omega, by simpa using ho, fun _ => rfl⟩
  · exact ⟨s.kept (repeats i), (s.kept_le _).trans (repeats_le hw), by simp, fun hne => absurd hp hne⟩

/-- A state with another list of pixels as `OUT`. -/
def State.withOut (s : State) (o : List Pixel) : State := { s with out := o }

theorem State.withOut_count {s : State} {o : List Pixel} (h : o.length = s.count) : (s.withOut o).count = s.count := h

theorem State.withOut_kept {s : State} {o : List Pixel} (h : o.length = s.count) (k : Nat) :
    (s.withOut o).kept k = s.kept k := by
  simp only [State.kept, State.needed, State.withOut_count h]
  rfl

/-- The end of a chunk reads of `OUT` its length alone, and appends the same pixels to any other list of that length. -/
theorem State.completeChunk_withOut {s : State} {o : List Pixel} (h : o.length = s.count) (p : Pixel) (k n : Nat) :
    (s.withOut o).completeChunk p k n =
      (s.completeChunk p k n).withOut (o ++ (s.completeChunk p k n).out.drop s.count) := by
  have hlen : (s.withOut o).out.length = s.out.length := h
  have hdrop : (s.completeChunk p k n).out.drop s.count = List.replicate (s.kept k) p := by simp [State.count]
  rw [hdrop, State.completeChunk_eq, State.completeChunk_eq, State.clippedAfter, State.withOut_kept h, hlen]
  rfl

/-- With nothing appended, the other list stands for `OUT` as it is. -/
theorem State.append_drop_count {s : State} (o : List Pixel) : o ++ s.out.drop s.count = o := by simp [State.count]

/-- Another list of the same length as `OUT` goes the same way, with the same pixels appended. -/
theorem State.withOut_mirrors {s : State} {o : List Pixel} (h : o.length = s.count) :
    Mirrors (fun t => t.withOut (o ++ t.out.drop s.count)) s (s.withOut o) where
  phase := rfl
  hostCmd := rfl
  fetchHeader := fetchHeader_congr rfl fun _ _ => rfl
  fetchChunk := fetchChunk_congr rfl rfl fun _ _ => rfl
  waits := by rw [State.append_drop_count]
  raises _ _ _ := by rw [State.raise_out, State.append_drop_count]; rfl
  execs := exec_mirrors rfl rfl rfl
    (fun _ _ _ _ _ _ _ _ => by rw [State.raise_out, State.writeHeader_out, State.append_drop_count]; rfl)
    (fun _ _ _ _ _ _ => by rw [State.openStream_out, State.writeHeader_out, State.append_drop_count]; rfl)
    (State.completeChunk_withOut h)

theorem State.handover_of_done {s : State} (h : s.phase = .done) :
    s.handover = some (s.hdrWidth, s.hdrHeight, s.out) := by
  simp only [State.handover, h]

theorem State.handover_of_ne_done {s : State} (h : s.phase ≠ .done) : s.handover = none := by
  unfold State.handover
  split <;> simp_all

/-- At DONE, `OUT` holds as many pixels as the image has. -/
theorem State.Inv.count_at_done {s : State} (h : s.Inv) (hp : s.phase = .done) :
    s.count = s.hdrWidth.toNat * s.hdrHeight.toNat :=
  (h.doneCount hp).trans (h.streamOpen (.inr hp)).total

/-- An index below `w * h` is a column below `w` and a row below `h`, in row-major order. -/
theorem row_major_bounds {i w h : Nat} (hi : i < w * h) : i % w < w ∧ i / w < h ∧ i / w * w + i % w = i :=
  ⟨Nat.mod_lt _ (Nat.pos_of_mul_pos_right (Nat.zero_lt_of_lt hi)), Nat.div_lt_of_lt_mul hi, Nat.div_add_mod' i w⟩

/-- At DONE, the pixel at the column and row of an index is the one `OUT` has there. -/
theorem State.Inv.pixelAt_row_major {s : State} (h : s.Inv) (hp : s.phase = .done) {i : Nat} (hi : i < s.count) :
    s.pixelAt (i % s.hdrWidth.toNat) (i / s.hdrWidth.toNat) = s.out[i]? := by
  obtain ⟨hcol, hrow, hidx⟩ := row_major_bounds (h.count_at_done hp ▸ hi)
  simp only [State.pixelAt, State.handover_of_done hp, hcol, hrow, hidx, and_self, if_true]

/-- Settles O11: what a step appends, that it reads of `OUT` the length alone, and the place of each pixel at DONE. -/
theorem outputIsAppendedInRowMajorOrder : Obligations.OutputIsAppendedInRowMajorOrder := by
  refine ⟨fun s t hn hs => ?appends, fun s o hn ho => (State.withOut_mirrors ho).step hn,
    fun s h hp i hi => h.pixelAt_row_major hp hi⟩
  case appends =>
    obtain ⟨m, hm, ho, hz⟩ := step_appends hn hs
    exact ⟨m, hm, ho, by simp [State.count, ho], hz⟩

/-! ### The handover (R59) -/

/-- Settles O12: only DONE hands over, the invariant gives the count there, and waiting at DONE writes nothing. -/
theorem handoverOnlyAtDoneAndWhole : Obligations.HandoverOnlyAtDoneAndWhole := by
  intro s h
  refine ⟨State.handover_of_ne_done, fun hp => ⟨State.handover_of_done hp, h.doneCount hp, h.count_at_done hp, ?_⟩⟩
  intro hn t hs
  rw [step_waits hn (.inr (.inl hp))] at hs
  cases hs
  rfl

end Sys2Proof.Machine
end

section
/-! PROOFS. The statements of 30_encoding.md on reading a chunk: the kinds (R74, R78), the lengths (R73), the fields
(R75) and the lengths of runs (R77). -/

namespace Sys2Proof.Machine

/-! ### Fields of a byte (R75) -/

/-- A field of `w` bits from bit `i` of a byte, as a number. -/
theorem field_toNat (b : Byte) (i w : Nat) : (b.extractLsb' i w).toNat = b.toNat / 2 ^ i % 2 ^ w := by
  rw [BitVec.extractLsb'_toNat, Nat.shiftRight_eq_div_pow]

/-! ### The kinds of the lead bytes (R74, R78) -/

/-- The two-bit tag is the lead byte's quarter of the byte range. -/
theorem tag_toNat (b0 : Byte) : (b0.extractLsb' 6 2).toNat = b0.toNat / 64 := by
  have h := b0.isLt
  rw [field_toNat]
  omega

/-- Dispatch by the lead byte as a number. -/
theorem dispatch_eq (b0 : Byte) : dispatch b0 =
    if b0.toNat = 0xFE then .rgb
    else if b0.toNat = 0xFF then .rgba
    else if b0.toNat / 64 = 0 then .index
    else if b0.toNat / 64 = 1 then .diff
    else if b0.toNat / 64 = 2 then .luma
    else .run := by
  simp only [dispatch, ← BitVec.toNat_inj, tag_toNat]
  rfl

/-- Settles O15: by the value of the lead byte, in the order of dispatch. -/
theorem leadBytesPartitionIntoSixKinds : Obligations.LeadBytesPartitionIntoSixKinds := by
  intro b0
  have h := b0.isLt
  rw [dispatch_eq]
  split_ifs <;> simp only [true_iff, false_iff] <;> omega

/-! ### What each kind of lead byte decodes to (R75) -/

section
variable {b0 : Byte}

theorem decodeChunk_rgb (h : dispatch b0 = .rgb) (b1 b2 b3 : Byte) (rest : List Byte) :
    decodeChunk (b0 :: b1 :: b2 :: b3 :: rest) = .ok (.rgb b1 b2 b3, rest) := by
  simp only [decodeChunk, h]

theorem decodeChunk_rgba (h : dispatch b0 = .rgba) (b1 b2 b3 b4 : Byte) (rest : List Byte) :
    decodeChunk (b0 :: b1 :: b2 :: b3 :: b4 :: rest) = .ok (.rgba b1 b2 b3 b4, rest) := by
  simp only [decodeChunk, h]

theorem decodeChunk_index (h : dispatch b0 = .index) (rest : List Byte) :
    decodeChunk (b0 :: rest) = .ok (.index (b0.extractLsb' 0 6), rest) := by
  simp only [decodeChunk, h]

theorem decodeChunk_diff (h : dispatch b0 = .diff) (rest : List Byte) :
    decodeChunk (b0 :: rest) =
      .ok (.diff (b0.extractLsb' 4 2) (b0.extractLsb' 2 2) (b0.extractLsb' 0 2), rest) := by
  simp only [decodeChunk, h]

theorem decodeChunk_luma (h : dispatch b0 = .luma) (b1 : Byte) (rest : List Byte) :
    decodeChunk (b0 :: b1 :: rest) =
      .ok (.luma (b0.extractLsb' 0 6) (b1.extractLsb' 4 4) (b1.extractLsb' 0 4), rest) := by
  simp only [decodeChunk, h]

theorem decodeChunk_run (h : dispatch b0 = .run) (rest : List Byte) :
    decodeChunk (b0 :: rest) = .ok (.run (b0.extractLsb' 0 6), rest) := by
  simp only [decodeChunk, h]

/-- Fewer bytes than the lead byte asks for do not decode, whichever kind it selects. -/
theorem decodeChunk_truncated {rest : List Byte} (h : (b0 :: rest).length < chunkLen b0) :
    decodeChunk (b0 :: rest) = .error (.truncated b0) := by
  rw [chunkLen_eq] at h
  cases hk : dispatch b0 <;> simp only [hk, List.length_cons] at h
  case rgb =>
    match rest, h with
    | [], _ | [_], _ | [_, _], _ => simp only [decodeChunk, hk]
  case rgba =>
    match rest, h with
    | [], _ | [_], _ | [_, _], _ | [_, _, _], _ => simp only [decodeChunk, hk]
  case luma =>
    match rest, h with
    | [], _ => simp only [decodeChunk, hk]
  all_goals omega

/-- Bytes enough decode as an instruction of the length the lead byte gives, and leave those after it. -/
theorem decodeChunk_takes_chunkLen {rest : List Byte} (h : chunkLen b0 ≤ (b0 :: rest).length) :
    ∃ i, i.length = chunkLen b0 ∧ decodeChunk (b0 :: rest) = .ok (i, (b0 :: rest).drop (chunkLen b0)) := by
  obtain ⟨i, hi⟩ := decodeChunk_of_le h
  have hd : decodeChunk (b0 :: rest) = .ok (i, (b0 :: rest).drop (chunkLen b0)) := by simpa using hi []
  obtain ⟨_, _, hb, -, -, hlen, -, -⟩ := decodeChunk_ok hd
  cases hb
  exact ⟨i, hlen, hd⟩

end

/-! ### Lengths (R73) -/

/-- Settles O16: the length by the kind the lead byte's range selects, and what decoding does on either side of it. -/
theorem chunkLengthFromTheLeadByteAlone : Obligations.ChunkLengthFromTheLeadByteAlone := by
  intro b0
  obtain ⟨hindex, hdiff, hluma, hrun, hrgb, hrgba⟩ := leadBytesPartitionIntoSixKinds b0
  refine ⟨fun h => ?rgb, fun h => ?rgba, fun h => ?indexOrDiff, fun hl hu => ?luma, fun hl hu => ?run,
    fun _ => ⟨decodeChunk_truncated, decodeChunk_takes_chunkLen⟩⟩
  case rgb => rw [chunkLen_eq, hrgb.2 h]
  case rgba => rw [chunkLen_eq, hrgba.2 h]
  case indexOrDiff =>
    rcases Nat.lt_or_ge b0.toNat 0x40 with hi | hd
    · rw [chunkLen_eq, hindex.2 (Nat.le_of_lt_succ hi)]
    · rw [chunkLen_eq, hdiff.2 ⟨hd, h⟩]
  case luma => rw [chunkLen_eq, hluma.2 ⟨hl, hu⟩]
  case run => rw [chunkLen_eq, hrun.2 ⟨hl, hu⟩]

/-! ### The fields of each kind (R75) -/

/-- Settles O17: what each kind decodes to, and the bytes put together again from the fields. -/
theorem fieldsStandWhereTheFormatsSay : Obligations.FieldsStandWhereTheFormatsSay := by
  intro b0 b1 b2 b3 b4 rest
  obtain ⟨hindex, hdiff, hluma, hrun, hrgb, hrgba⟩ := leadBytesPartitionIntoSixKinds b0
  have h1 := b1.isLt
  refine ⟨fun h => decodeChunk_rgb (hrgb.2 h) .., fun h => decodeChunk_rgba (hrgba.2 h) ..,
    fun h => ⟨_, decodeChunk_index (hindex.2 h) _, ?index⟩,
    fun hl hu => ⟨_, _, _, decodeChunk_diff (hdiff.2 ⟨hl, hu⟩) _, ?diff⟩,
    fun hl hu => ⟨_, _, _, decodeChunk_luma (hluma.2 ⟨hl, hu⟩) .., ?lead, ?operand⟩,
    fun hl hu => ⟨_, decodeChunk_run (hrun.2 ⟨hl, hu⟩) _, ?run⟩⟩
  all_goals
    simp only [field_toNat]
    omega

/-! ### The lengths of runs (R77) -/

/-- A run of `k` pixels is decoded from the lead byte `0xBF + k`. -/
theorem decodeChunk_run_of_length {k : Nat} (hl : 1 ≤ k) (hu : k ≤ 62) : ∃ (b0 : Byte) (n : BitVec 6), ∀ rest,
    decodeChunk (b0 :: rest) = .ok (.run n, rest) ∧ runLength n = k := by
  obtain ⟨b0, hb⟩ : ∃ b0 : Byte, b0.toNat = 0xBF + k := ⟨_, BitVec.toNat_ofNatLT (0xBF + k) (by omega)⟩
  obtain ⟨-, -, -, hrun, -, -⟩ := leadBytesPartitionIntoSixKinds b0
  refine ⟨b0, _, fun rest => ⟨decodeChunk_run (hrun.2 (by omega)) rest, ?_⟩⟩
  rw [runLength, field_toNat, hb]
  omega

/-- Settles O19: a RUN that decodes is well formed, and each count has its lead byte. -/
theorem runsRepeatOneToSixtyTwoTimes : Obligations.RunsRepeatOneToSixtyTwoTimes := by
  refine ⟨fun bs rest n h => ?_, fun _ => decodeChunk_run_of_length, rfl, rfl⟩
  obtain ⟨_, _, -, -, hw, -, -, -⟩ := decodeChunk_ok h
  have hn : n.toNat < 62 := of_decide_eq_true hw
  simp only [runLength]
  omega

end Sys2Proof.Machine
end

section
/-! PROOFS. The statements of 40_header.md: START (R100), the header step's checks (R102) and commit (R103, R104), and the
two header fields that affect no decoding (R105). -/

namespace Sys2Proof.Machine

/-! ### START (R100) -/

/-- START in a waiting phase goes to the state with every element rewritten. -/
theorem step_start_accepted {s : State} {bytes : List Byte} (hc : s.hostCmd = some (.start bytes))
    (hp : s.phase = .idle ∨ s.phase = .done ∨ s.phase = .error) : step s = .next (s.start bytes) := by
  rw [step_start hc, if_pos (s.acceptsStart_iff.2 hp)]

/-- Settles O6: the next state is `State.start`, which is fresh and holds the host's bytes. -/
theorem startLoadsTheInputAndRewritesEverything : Obligations.StartLoadsTheInputAndRewritesEverything :=
  fun s bytes hc hp => ⟨s.start bytes, step_start_accepted hc hp, rfl, rfl, s.start_inByte bytes, s.start_fresh bytes,
    rfl, rfl⟩

/-! ### The channel count and the colorspace have no other effect (R105) -/

/-- A state with another channel count and another colorspace. -/
def State.withChannelsColorspace (s : State) (ch cs : Byte) : State :=
  { s with hdrChannels := ch, hdrColorspace := cs }

/-- The end of a chunk reads neither the channel count nor the colorspace. -/
theorem State.completeChunk_withChannelsColorspace (s : State) (ch cs : Byte) (p : Pixel) (k n : Nat) :
    (s.withChannelsColorspace ch cs).completeChunk p k n =
      (s.completeChunk p k n).withChannelsColorspace ch cs := by
  rw [State.completeChunk_eq, State.completeChunk_eq]
  rfl

/-- No chunk reads the channel count or the colorspace. -/
theorem exec_chunk_withChannelsColorspace {i : Instr} (hi : i.place = .chunk) (s : State) (ch cs : Byte) :
    exec i (s.withChannelsColorspace ch cs) = onNext (·.withChannelsColorspace ch cs) (exec i s) := by
  rw [exec_chunk hi, exec_chunk hi, produced_congr (s' := s) rfl rfl, State.completeChunk_withChannelsColorspace]
  rfl

/-- In a phase that takes no step of its own, the block waits. -/
theorem Phase.waits_of_ne {p : Phase} (hh : p ≠ .header) (hd : p ≠ .decode) : p = .idle ∨ p = .done ∨ p = .error := by
  cases p <;> simp at hh hd ⊢

/-- No step without a command but the header's reads the channel count or the colorspace: a chunk step fetches an error,
a stop or a chunk, and none of them depends on the two. -/
theorem step_withChannelsColorspace {s : State} (hp : s.phase ≠ .header) (hn : s.hostCmd = none) (ch cs : Byte) :
    step (s.withChannelsColorspace ch cs) = onNext (·.withChannelsColorspace ch cs) (step s) := by
  have hn' : (s.withChannelsColorspace ch cs).hostCmd = none := hn
  by_cases hq : s.phase = .decode
  · have hfetch : fetchChunk (s.withChannelsColorspace ch cs) = fetchChunk s :=
      fetchChunk_congr rfl rfl fun _ _ => rfl
    rw [step_chunk ⟨hq, hn⟩, step_chunk (s := s.withChannelsColorspace ch cs) ⟨hq, hn'⟩, hfetch]
    rcases fetchChunk_cases s with ⟨-, hf⟩ | ⟨-, hf⟩ | ⟨b0, -, -, hf⟩ | ⟨b0, i, -, -, hf, hi, -⟩ <;> rw [hf]
    · rfl
    · rfl
    · rfl
    · exact exec_chunk_withChannelsColorspace hi s ch cs
  · have hw := Phase.waits_of_ne hp hq
    rw [step_waits hn hw, step_waits hn' hw]
    rfl

/-- The header step copies the channel count and the colorspace, and lets pass the legal ones only. -/
theorem exec_header_channels_colorspace {s t : State} {m w h : Word} {ch cs : Byte}
    (he : exec (.header m w h ch cs) s = .next t) :
    t.hdrChannels = ch ∧ t.hdrColorspace = cs ∧
      (t.phase ≠ .error → (ch = 3#8 ∨ ch = 4#8) ∧ (cs = 0#8 ∨ cs = 1#8)) := by
  rcases exec_header_cases m w h ch cs s with ⟨f, v, hv, e⟩ | ⟨hv, hc, e⟩ | ⟨hv, hc, e⟩ <;> rw [e] at he <;> cases he
  · exact ⟨rfl, rfl, fun hne => absurd rfl hne⟩
  · exact ⟨rfl, rfl, fun _ => ((invalidField_eq_none m ch cs).1 hv).2⟩

/-- Settles O29: the header step copies and checks the two; every other step commutes with giving them other values. -/
theorem channelsAndColorspaceAffectNoDecoding : Obligations.ChannelsAndColorspaceAffectNoDecoding :=
  ⟨fun _ _ _ _ _ _ _ he => exec_header_channels_colorspace he,
    fun _ ch cs hp hn => step_withChannelsColorspace hp hn ch cs⟩

/-! ### The header step's checks, in their order (R102) -/

theorem invalidField_magic {m : Word} (hm : m ≠ 0x716F6966#32) (ch cs : Byte) :
    invalidField m ch cs = some (0#2, m) := if_pos hm

theorem invalidField_channels {m : Word} {ch : Byte} (hm : m = 0x716F6966#32) (h3 : ch ≠ 3#8) (h4 : ch ≠ 4#8)
    (cs : Byte) : invalidField m ch cs = some (1#2, ch.setWidth 32) := by
  have hmagic : ¬ m ≠ Config.magic := not_not_intro hm
  rw [invalidField, if_neg hmagic, if_pos ⟨h3, h4⟩]

theorem invalidField_colorspace {m : Word} {ch cs : Byte} (hm : m = 0x716F6966#32) (hch : ch = 3#8 ∨ ch = 4#8)
    (h0 : cs ≠ 0#8) (h1 : cs ≠ 1#8) : invalidField m ch cs = some (2#2, cs.setWidth 32) := by
  have hmagic : ¬ m ≠ Config.magic := not_not_intro hm
  have hlegal : ¬ (ch ≠ 3#8 ∧ ch ≠ 4#8) := by tauto
  rw [invalidField, if_neg hmagic, if_neg hlegal, if_pos ⟨h0, h1⟩]

/-- Settles O26: what validation reports is what the header step raises over the fields it has read. -/
theorem firstIllegalHeaderFieldIsReported : Obligations.FirstIllegalHeaderFieldIsReported := by
  intro s m w h ch cs
  simp only [BitVec.ofNat_toNat]
  exact ⟨fun hm => exec_header_raises (invalidField_magic hm ch cs),
    fun hm h3 h4 => exec_header_raises (invalidField_channels hm h3 h4 cs),
    fun hm hch h0 h1 => exec_header_raises (invalidField_colorspace hm hch h0 h1)⟩

/-! ### The header step's commit (R103, R104) -/

/-- The product of two 32-bit values fits 64 bits. -/
theorem toNat_mul_toNat_lt (w h : Word) : w.toNat * h.toNat < 2 ^ 64 :=
  calc w.toNat * h.toNat < 2 ^ 32 * 2 ^ 32 := Nat.mul_lt_mul'' w.isLt h.isLt
    _ = 2 ^ 64 := by norm_num

/-- Settles O27: a header that passes validation opens the stream within the capacity and is refused above it. -/
theorem legalHeaderOpensTheStreamOrIsRefused : Obligations.LegalHeaderOpensTheStreamOrIsRefused := by
  intro s m w h ch cs hm hch hcs
  have hv : invalidField m ch cs = none := (invalidField_eq_none m ch cs).2 ⟨hm, hch, hcs⟩
  exact ⟨exec_header_opens hv, exec_header_refused hv, toNat_mul_toNat_lt w h⟩

/-- Settles O28: a total of 0 is within every capacity, and the stream opened is at DONE, where the block waits. -/
theorem noPixelsEndTheDecodeAtOnce : Obligations.NoPixelsEndTheDecodeAtOnce := by
  intro s m w h ch cs hs hf hm hch hcs hzero
  have htotal : w.toNat * h.toNat = 0 := by rcases hzero with rfl | rfl <;> simp
  have he := exec_header_opens (w := w) (h := h) (s := s) ((invalidField_eq_none m ch cs).2 ⟨hm, hch, hcs⟩)
    (htotal ▸ Nat.zero_le _)
  rw [htotal] at he
  have hhand : ((s.writeHeader m w h ch cs).openStream 0).handover = some (w, h, s.out) := State.handover_of_done rfl
  refine ⟨_, he, rfl, rfl, congrArg List.length hf.out, rfl, hf.out ▸ hhand, fun u hu => ?_⟩
  rw [step_waits (s := (s.writeHeader m w h ch cs).openStream 0) hs.noCmd (.inr (.inl rfl))] at hu
  cases hu
  rfl

end Sys2Proof.Machine
end

section
/-! PROOFS. The statements of 41_chunk_step.md, the common chunk step: the two input checks (R121, R122), the hash (R123),
the commit (R124) and the end of the decode (R125, R129), and what a chunk reads of the one before it (R126, R127). -/

namespace Sys2Proof.Machine

/-! ### The input checks (R121, R122) -/

/-- Settles O32: at the end of the input fetching raises `PixelCountShort`, and error entry writes its four elements. -/
theorem inputEndingAtABoundaryIsPixelCountShort : Obligations.InputEndingAtABoundaryIsPixelCountShort := by
  intro s hs he
  rw [step_chunk hs, fetchChunk_at_end he]
  rfl

/-- Only RGB, RGBA and LUMA are longer than their lead byte. -/
theorem dispatch_of_one_lt_chunkLen {b0 : Byte} (h : 1 < chunkLen b0) :
    dispatch b0 = .rgb ∨ dispatch b0 = .rgba ∨ dispatch b0 = .luma := by
  rw [chunkLen_eq] at h
  cases hk : dispatch b0 <;> simp [hk] at h ⊢

/-- Settles O33: fetching raises `TruncatedStream`, and a chunk whose lead byte alone is present is longer than that. -/
theorem chunkCutShortIsTruncatedStream : Obligations.ChunkCutShortIsTruncatedStream := by
  intro s b0 hs hb hl
  have hpos : s.pos < s.len := (State.inByte_eq_some.1 hb).1
  refine ⟨?_, dispatch_of_one_lt_chunkLen (by omega)⟩
  rw [step_chunk hs, fetchChunk_truncated hb hl, BitVec.ofNat_toNat]
  rfl

/-! ### The hash (R123) -/

/-- The weighted sum of a pixel's channels that the hash reduces. -/
def weightedSum (p : Pixel) : Nat := 3 * p.r.toNat + 5 * p.g.toNat + 7 * p.b.toNat + 11 * p.a.toNat

/-- The largest sum is that of the pixel with every channel at 255. -/
theorem weightedSum_le (p : Pixel) : weightedSum p ≤ 6630 := by
  have hr := p.r.isLt
  have hg := p.g.isLt
  have hb := p.b.isLt
  have ha := p.a.isLt
  unfold weightedSum
  omega

/-- The sum computed in `w` bits is the exact sum, wrapped. -/
theorem weightedSum_bitVec (p : Pixel) (w : Nat) :
    (3 * BitVec.ofNat w p.r.toNat + 5 * BitVec.ofNat w p.g.toNat + 7 * BitVec.ofNat w p.b.toNat +
      11 * BitVec.ofNat w p.a.toNat : BitVec w) = BitVec.ofNat w (weightedSum p) := by
  simp only [weightedSum, BitVec.ofNat_add, BitVec.ofNat_mul]
  rfl

/-- Settles O34: a sum wrapped to 6 bits or more is the same modulo 64, since 64 divides the modulus it wraps by. -/
theorem hashIsTheWeightedSumModulo64 : Obligations.HashIsTheWeightedSumModulo64 := by
  intro p
  refine ⟨pixelHash_toNat p, weightedSum_le p, fun w hw => ?_⟩
  have hdvd : 64 ∣ 2 ^ w := Nat.pow_dvd_pow 2 hw
  rw [weightedSum_bitVec, BitVec.toNat_ofNat, Nat.mod_mod_of_dvd _ hdvd]
  exact pixelHash_toNat p

/-! ### The commit (R124) -/

/-- Settles O35: every chunk runs to the end that `completeChunk` describes, `k` being its repeat count; the pixels still
needed are not used, the count kept being `min(k, N - COUNT)` in any state. -/
theorem everyChunkCommitsAlike : Obligations.EveryChunkCommitsAlike := by
  intro i s hi hw _
  refine ⟨_, repeats i, exec_chunk hi s, repeats_pos hi, repeats_le hw, fun hne => ?notRun, fun n hn => ?run, ?effect,
    State.completeChunk_clipped ..⟩
  case notRun => exact (repeats_eq_one_or_run hi).resolve_right fun ⟨n, hn⟩ => hne n hn
  case run => rw [hn]; rfl
  case effect =>
    rw [State.completeChunk_prev]
    exact s.completeChunk_effect ..

/-! ### The end of the decode (R125) -/

/-- A chunk completed in DECODE ends the decode exactly if it brings `COUNT` to `N`. -/
theorem State.completeChunk_done_iff {s : State} (hp : s.phase = .decode) (p : Pixel) (k n : Nat) :
    (s.completeChunk p k n).phase = .done ↔ (s.completeChunk p k n).count = (s.completeChunk p k n).n := by
  rw [State.completeChunk_phase, hp, ite_done_decode_eq_done, State.completeChunk_count, State.completeChunk_n]
  rfl

/-- A chunk never brings `COUNT` past `N`. -/
theorem State.completeChunk_count_le {s : State} (hc : s.count ≤ s.n) (p : Pixel) (k n : Nat) :
    (s.completeChunk p k n).count ≤ (s.completeChunk p k n).n := by
  have hkept := s.kept_le_needed k
  rw [State.completeChunk_count, State.completeChunk_n]
  omega

/-- An error leaves `COUNT` below `N`, and DONE is not entered. -/
theorem State.raise_done_iff {s : State} (hc : s.count < s.n) (e : ErrKind) (f : BitVec 2) (v : Word) :
    (s.raise e f v).phase = .done ↔ (s.raise e f v).count = (s.raise e f v).n :=
  iff_of_false (by simp) hc.ne

/-- Settles O36: a chunk step raises or completes a chunk, and at DONE with no command waiting the block waits. -/
theorem decodeHaltsExactlyAtTheTotal : Obligations.DecodeHaltsExactlyAtTheTotal := by
  intro s t hs hc h
  have waits (hn : t.hostCmd = s.hostCmd) (hd : t.phase = .done) (u : State) (hu : step t = .next u) : u = t := by
    rw [step_waits (hn.trans hs.noCmd) (.inr (.inl hd))] at hu
    cases hu
    rfl
  rcases step_chunk_cases hs with ⟨-, e⟩ | ⟨-, e⟩ | ⟨b0, -, -, e⟩ | ⟨b0, i, -, -, -, -, -, -, e, -⟩ <;>
    rw [e] at h <;> cases h
  · exact ⟨hc.le, rfl, State.raise_done_iff hc .., waits rfl⟩
  · exact ⟨hc.le, rfl, State.raise_done_iff hc .., waits rfl⟩
  · exact ⟨State.completeChunk_count_le hc.le .., State.completeChunk_n .., State.completeChunk_done_iff hs.phase ..,
      waits (State.completeChunk_hostCmd ..)⟩

/-! ### What a chunk reads, and what the next one sees (R126, R127) -/

/-- The next state of a chunk is its end. -/
theorem exec_chunk_next {i : Instr} {s t : State} (hi : i.place = .chunk) (h : exec i s = .next t) :
    t = s.completeChunk (produced s i) (repeats i) i.length := by
  rw [exec_chunk hi] at h
  cases h
  rfl

/-- Settles O37: the pixel produced depends on `PREV` and `cache`, and the end of a chunk writes both from it. -/
theorem chunkMeaningDependsOnPrevAndCacheAlone : Obligations.ChunkMeaningDependsOnPrevAndCacheAlone := by
  intro i s s' t t' hi hp hc h h'
  rw [exec_chunk_next hi h, exec_chunk_next hi h', produced_congr hp hc]
  simp [hc]

/-- A chunk makes the pixel it produces `PREV`. -/
theorem exec_chunk_prev {i : Instr} (hi : i.place = .chunk) (s : State) :
    ∃ t, exec i s = .next t ∧ t.prev = produced s i :=
  ⟨_, exec_chunk hi s, State.completeChunk_prev ..⟩

/-- After a chunk, `PREV` stands in the slot of its hash. -/
theorem exec_chunk_caches_prev {i : Instr} {s t : State} (hi : i.place = .chunk) (h : exec i s = .next t) :
    t.cacheRead (pixelHash t.prev) = t.prev := by
  rw [exec_chunk_next hi h, State.completeChunk_prev, State.completeChunk_cacheRead, if_pos rfl]

/-- The lane law on integers: each delta added modulo 256, alpha copied. -/
theorem addDeltas_lanes (p : Pixel) (dr dg db : Int) :
    ((addDeltas p dr dg db).r.toNat : Int) = ((p.r.toNat : Int) + dr) % 256 ∧
    ((addDeltas p dr dg db).g.toNat : Int) = ((p.g.toNat : Int) + dg) % 256 ∧
    ((addDeltas p dr dg db).b.toNat : Int) = ((p.b.toNat : Int) + db) % 256 ∧ (addDeltas p dr dg db).a = p.a :=
  ⟨addLane_toNat .., addLane_toNat .., addLane_toNat .., rfl⟩

/-- Settles O38: what each kind that reads `PREV` or a slot produces after a chunk. -/
theorem nextChunkSeesThePreviousWrites : Obligations.NextChunkSeesThePreviousWrites := by
  intro i s t hi h
  refine ⟨?index, fun n => exec_chunk_prev rfl t, fun r g b => exec_chunk_prev rfl t, fun dr dg db => ?diff,
    fun dg x y => ?luma⟩
  case index =>
    obtain ⟨u, hu, hprev⟩ := exec_chunk_prev (i := .index (pixelHash t.prev)) rfl t
    exact ⟨u, hu, hprev.trans (exec_chunk_caches_prev hi h)⟩
  case diff =>
    obtain ⟨u, hu, hprev⟩ := exec_chunk_prev (i := .diff dr dg db) rfl t
    exact ⟨u, hu, hprev ▸ addDeltas_lanes ..⟩
  case luma =>
    obtain ⟨u, hu, hprev⟩ := exec_chunk_prev (i := .luma dg x y) rfl t
    exact ⟨u, hu, hprev ▸ addDeltas_lanes ..⟩

/-! ### Every decode ends (R129) -/

/-- A chunk step with the cursor within the input ends the decode, or leaves another chunk step with the cursor moved
forward within the same input. -/
theorem step_chunk_ends_or_advances {s : State} (hs : s.AtChunk) (hp : s.pos ≤ s.len) :
    ∃ t, step s = .next t ∧ (t.Ended ∨ (t.AtChunk ∧ s.pos < t.pos ∧ t.pos ≤ t.len ∧ t.len = s.len)) := by
  rcases step_chunk_cases hs with ⟨-, e⟩ | ⟨hlt, -⟩ | ⟨b0, -, -, e⟩ | ⟨b0, i, -, hl, -, -, -, -, e, -⟩
  · exact ⟨_, e, .inl (.inr rfl)⟩
  · omega
  · exact ⟨_, e, .inl (.inr rfl)⟩
  · refine ⟨_, e, ?_⟩
    have hlen := chunkLen_pos b0
    by_cases hall : s.out.length + s.kept (repeats i) = s.n
    · exact .inl (.inl (by rw [State.completeChunk_phase, if_pos hall]))
    · have hdecode : (s.completeChunk (produced s i) (repeats i) (chunkLen b0)).phase = .decode := by
        rw [State.completeChunk_phase, if_neg hall, hs.phase]
      exact .inr ⟨⟨hdecode, by simpa using hs.noCmd⟩, by simp; omega, by simpa using hl, by simp⟩

/-- From a chunk step, at most one step a byte left and one more end the decode. -/
theorem run_from_chunk_ends {s : State} (hs : s.AtChunk) (hp : s.pos ≤ s.len) :
    ∃ k t, k ≤ s.len - s.pos + 1 ∧ core.run k s = .next t ∧ t.Ended := by
  obtain ⟨t, hstep, hend | ⟨ht, hlt, hle, hlen⟩⟩ := step_chunk_ends_or_advances hs hp
  · exact ⟨1, t, by omega, run_succ hstep 0, hend⟩
  · obtain ⟨k, u, hk, hrun, hu⟩ := run_from_chunk_ends ht hle
    exact ⟨k + 1, u, by omega, (run_succ hstep k).trans hrun, hu⟩
termination_by s.len - s.pos

/-- Settles O40: each step moves the cursor or raises, so the bytes left bound the steps. -/
theorem everyDecodeEnds : Obligations.EveryDecodeEnds := by
  intro s h hs
  refine ⟨fun t ht hne => ?_, run_from_chunk_ends hs h.posLe⟩
  rcases step_chunk_pos hs ht with ⟨he, -⟩ | ⟨b0, -, -, -, hlt⟩
  · exact absurd he hne
  · exact hlt

end Sys2Proof.Machine
end

section
/-! PROOFS. The statements of 42_literal.md, the literal chunks RGB (R140) and RGBA (R141), with what every chunk that
produces one pixel does, and the step over a chunk whose bytes are known. -/

namespace Sys2Proof.Machine

/-! ### A chunk of one pixel (R124) -/

/-- With pixels still needed, a chunk of repeat count 1 appends its pixel once and clips nothing. -/
theorem exec_one_pixel {i : Instr} {s : State} (hi : i.place = .chunk) (hk : repeats i = 1) (hc : s.count < s.n) :
    ∃ t, exec i s = .next t ∧ ChunkEffect s t (produced s i) 1 i.length ∧ t.clipped = s.clipped := by
  refine ⟨_, exec_chunk hi s, ?effect, ?clipped⟩ <;> rw [hk]
  case effect =>
    have heffect := s.completeChunk_effect (produced s i) 1 i.length
    rwa [State.kept_one hc] at heffect
  case clipped => rw [State.completeChunk_clipped, State.clippedAfter_one hc]

/-! ### Bytes of `IN` read one by one and together (R7) -/

theorem State.memRead_one {s : State} {a : Nat} {b : Byte} (h : s.inByte a = some b) : s.memRead a 1 = some [b] := by
  obtain ⟨hlt, hread⟩ := State.inByte_eq_some.1 h
  rw [State.memRead_of_le hlt, ← hread]
  rfl

theorem State.memRead_cons {s : State} {a k : Nat} {b : Byte} {bs : List Byte} (h : s.inByte a = some b)
    (hbs : s.memRead (a + 1) k = some bs) : s.memRead a (k + 1) = some (b :: bs) := by
  obtain ⟨-, hread⟩ := State.inByte_eq_some.1 h
  obtain ⟨hle, htail⟩ := Option.ite_none_right_eq_some.1 hbs
  rw [State.memRead_of_le (by omega), ← hread, ← Option.some.inj htail]
  rfl

/-! ### The step over a chunk's bytes (R120, R122) -/

section
variable {s : State} {b0 : Byte}

/-- A chunk step runs what the bytes of its chunk decode to. -/
theorem step_chunk_decoded {bs rest : List Byte} {i : Instr} (hs : s.AtChunk) (hb : s.inByte s.pos = some b0)
    (hm : s.memRead s.pos (chunkLen b0) = some bs) (hd : decodeChunk bs = .ok (i, rest)) : step s = exec i s := by
  obtain ⟨hlt, -⟩ := State.inByte_eq_some.1 hb
  obtain ⟨hle, -⟩ := Option.ite_none_right_eq_some.1 hm
  have hfetch : fetchChunk s = .runs i := by
    simp only [fetchChunk, if_neg hlt.ne, hb, fetchFrom, if_neg (Nat.not_lt.2 hle), hm, fetchedFrom, decode, hd]
  rw [step_chunk hs, hfetch]
  rfl

/-- A chunk longer than what remains ends the decode with `TruncatedStream`. -/
theorem step_chunk_truncated (hs : s.AtChunk) (hb : s.inByte s.pos = some b0) (hl : s.len < s.pos + chunkLen b0) :
    ∃ t, step s = .next t ∧ t.phase = .error ∧ t.errCode = .truncatedStream :=
  ⟨_, (chunkCutShortIsTruncatedStream s b0 hs hb hl).1, rfl, rfl⟩

end

/-! ### The literal chunks (R140, R141) -/

/-- Settles O41: RGB is a chunk of one pixel, and the lead byte `0xFE` with three bytes after it decodes to RGB. -/
theorem rgbTakesItsOperandsAndKeepsAlpha : Obligations.RgbTakesItsOperandsAndKeepsAlpha := by
  refine ⟨fun s r g b => exec_one_pixel (i := .rgb r g b) rfl rfl, fun s hs hlead =>
    ⟨step_chunk_truncated hs hlead, fun r g b hr hg hb => ?_⟩⟩
  have hbytes : s.memRead s.pos 4 = some [0xFE#8, r, g, b] :=
    State.memRead_cons hlead (State.memRead_cons hr (State.memRead_cons hg (State.memRead_one hb)))
  exact step_chunk_decoded hs hlead hbytes (decodeChunk_rgb rfl r g b [])

/-- Settles O42: RGBA is a chunk of one pixel, and the lead byte `0xFF` with four bytes after it decodes to RGBA. -/
theorem rgbaTakesAllFourOperands : Obligations.RgbaTakesAllFourOperands := by
  refine ⟨fun s r g b a => exec_one_pixel (i := .rgba r g b a) rfl rfl, fun s hs hlead =>
    ⟨step_chunk_truncated hs hlead, fun r g b a hr hg hb ha => ?_⟩⟩
  have hbytes : s.memRead s.pos 5 = some [0xFF#8, r, g, b, a] :=
    State.memRead_cons hlead
      (State.memRead_cons hr (State.memRead_cons hg (State.memRead_cons hb (State.memRead_one ha))))
  exact step_chunk_decoded hs hlead hbytes (decodeChunk_rgba rfl r g b a [])

end Sys2Proof.Machine
end

section
/-! PROOFS. The statement of 43_index.md, the cache reference chunk INDEX (R150), with the fields of a lead byte as
numbers and the step over a chunk of one byte. -/

namespace Sys2Proof.Machine

/-! ### The fields of a byte from its number (R75) -/

/-- A field of `w` bits from bit `i` of a byte is the byte's number without its `i` low bits, wrapped. -/
theorem field_eq_ofNat (b : Byte) (i w : Nat) : b.extractLsb' i w = BitVec.ofNat w (b.toNat / 2 ^ i) := by
  rw [BitVec.extractLsb', Nat.shiftRight_eq_div_pow]

/-- A field from bit 0 is the byte's number, wrapped. -/
theorem low_field_eq_ofNat (b : Byte) (w : Nat) : b.extractLsb' 0 w = BitVec.ofNat w b.toNat := by
  rw [field_eq_ofNat, Nat.pow_zero, Nat.div_one]

/-! ### The step over a chunk of one byte (R120) -/

/-- A chunk that is its lead byte alone is never cut short: the step runs what the lead byte decodes to. -/
theorem step_one_byte_chunk {s : State} {b0 : Byte} {i : Instr} {rest : List Byte} (hs : s.AtChunk)
    (hb : s.inByte s.pos = some b0) (hl : chunkLen b0 = 1) (hd : decodeChunk [b0] = .ok (i, rest)) :
    step s = exec i s :=
  step_chunk_decoded hs hb (hl ▸ State.memRead_one hb) hd

/-! ### INDEX (R150) -/

/-- A lead byte up to `0x3F` is an INDEX chunk, its slot the byte's low six bits. -/
theorem step_index {s : State} {b0 : Byte} (hs : s.AtChunk) (hb : s.inByte s.pos = some b0) (hle : b0.toNat ≤ 0x3F) :
    step s = exec (.index (BitVec.ofNat 6 b0.toNat)) s := by
  obtain ⟨hindex, -⟩ := leadBytesPartitionIntoSixKinds b0
  have hkind : dispatch b0 = .index := hindex.2 hle
  rw [← low_field_eq_ofNat]
  exact step_one_byte_chunk hs hb (by rw [chunkLen_eq, hkind]) (decodeChunk_index hkind [])

/-- While `PREV` stands in the slot of its hash, INDEX of that slot leaves `PREV` as it is. -/
theorem exec_index_hash_prev {s : State} (h : s.cacheRead (pixelHash s.prev) = s.prev) :
    ∃ t, exec (.index (pixelHash s.prev)) s = .next t ∧ t.prev = s.prev := by
  obtain ⟨t, hexec, hprev⟩ := exec_chunk_prev (i := .index (pixelHash s.prev)) rfl s
  exact ⟨t, hexec, hprev.trans h⟩

/-- Settles O43: INDEX is a chunk of one pixel, that of its slot; the lead bytes up to `0x3F` decode to it; and the
invariant keeps `PREV` in the slot of its hash. -/
theorem indexProducesThePixelOfItsSlot : Obligations.IndexProducesThePixelOfItsSlot :=
  ⟨fun _ idx => exec_one_pixel (i := .index idx) rfl rfl, fun _ _ => step_index,
    fun _ h => exec_index_hash_prev h.cachePrev⟩

end Sys2Proof.Machine
end

section
/-! PROOFS. The statements of 44_delta.md, the delta chunks DIFF (R161) and LUMA (R162), each a chunk of one pixel whose
lanes obey the lane law (R160). -/

namespace Sys2Proof.Machine

/-! ### A chunk that adds a delta to each lane (R160) -/

/-- With pixels still needed, a one-pixel chunk that produces `PREV` plus three deltas commits a pixel whose channels are
those sums modulo 256 and whose alpha is that of `PREV`. -/
theorem exec_deltas {i : Instr} {s : State} {dr dg db : Int} (hi : i.place = .chunk) (hk : repeats i = 1)
    (hp : produced s i = addDeltas s.prev dr dg db) (hc : s.count < s.n) :
    ∃ t p, exec i s = .next t ∧ ChunkEffect s t p 1 i.length ∧ t.clipped = s.clipped ∧
      (p.r.toNat : Int) = ((s.prev.r.toNat : Int) + dr) % 256 ∧
      (p.g.toNat : Int) = ((s.prev.g.toNat : Int) + dg) % 256 ∧
      (p.b.toNat : Int) = ((s.prev.b.toNat : Int) + db) % 256 ∧ p.a = s.prev.a := by
  obtain ⟨t, hexec, heffect, hclipped⟩ := exec_one_pixel hi hk hc
  exact ⟨t, _, hexec, hp ▸ heffect, hclipped, addDeltas_lanes ..⟩

/-! ### The steps over their lead bytes (R120, R122) -/

section
variable {s : State} {b0 : Byte}

/-- A lead byte from `0x40` to `0x7F` is a DIFF chunk, its three fields the byte's low six bits in pairs. -/
theorem step_diff (hs : s.AtChunk) (hb : s.inByte s.pos = some b0) (hl : 0x40 ≤ b0.toNat) (hu : b0.toNat ≤ 0x7F) :
    step s =
      exec (.diff (BitVec.ofNat 2 (b0.toNat / 16)) (BitVec.ofNat 2 (b0.toNat / 4)) (BitVec.ofNat 2 b0.toNat)) s := by
  obtain ⟨-, hdiff, -⟩ := leadBytesPartitionIntoSixKinds b0
  have hkind : dispatch b0 = .diff := hdiff.2 ⟨hl, hu⟩
  have hdecode := decodeChunk_diff hkind []
  rw [field_eq_ofNat b0 4, field_eq_ofNat b0 2, low_field_eq_ofNat] at hdecode
  exact step_one_byte_chunk hs hb (by rw [chunkLen_eq, hkind]) hdecode

/-- A LUMA lead byte with a byte after it runs LUMA, the side fields that byte's two halves. -/
theorem step_luma {b1 : Byte} (hs : s.AtChunk) (hb : s.inByte s.pos = some b0) (hkind : dispatch b0 = .luma)
    (hb1 : s.inByte (s.pos + 1) = some b1) :
    step s = exec (.luma (BitVec.ofNat 6 b0.toNat) (BitVec.ofNat 4 (b1.toNat / 16)) (BitVec.ofNat 4 b1.toNat)) s := by
  have hlen : chunkLen b0 = 2 := by rw [chunkLen_eq, hkind]
  have hbytes : s.memRead s.pos (chunkLen b0) = some [b0, b1] :=
    hlen ▸ State.memRead_cons hb (State.memRead_one hb1)
  have hdecode := decodeChunk_luma hkind b1 []
  rw [low_field_eq_ofNat, field_eq_ofNat b1 4, low_field_eq_ofNat] at hdecode
  exact step_chunk_decoded hs hb hbytes hdecode

/-- A LUMA lead byte that is the last of the input is cut short. -/
theorem step_luma_truncated (hs : s.AtChunk) (hb : s.inByte s.pos = some b0) (hkind : dispatch b0 = .luma)
    (hlast : s.pos + 1 = s.len) : ∃ t, step s = .next t ∧ t.phase = .error ∧ t.errCode = .truncatedStream := by
  have hlen : chunkLen b0 = 2 := by rw [chunkLen_eq, hkind]
  exact step_chunk_truncated hs hb (by omega)

end

/-! ### DIFF and LUMA (R161, R162) -/

/-- Settles O44: DIFF is a chunk of one pixel under the lane law, and the lead bytes from `0x40` to `0x7F` run it. -/
theorem diffAddsSmallDeltasModulo256 : Obligations.DiffAddsSmallDeltasModulo256 :=
  ⟨fun _ dr dg db => exec_deltas (i := .diff dr dg db) rfl rfl rfl, fun _ _ => step_diff⟩

/-- Settles O45: LUMA is a chunk of one pixel under the lane law, and the lead bytes from `0x80` to `0xBF` run it or, with
no byte after them, are cut short. -/
theorem lumaAddsCoupledDeltasModulo256 : Obligations.LumaAddsCoupledDeltasModulo256 := by
  refine ⟨fun s dg drdg dbdg => exec_deltas (i := .luma dg drdg dbdg) rfl rfl rfl, fun s b0 hs hb hl hu => ?_⟩
  obtain ⟨-, -, hluma, -⟩ := leadBytesPartitionIntoSixKinds b0
  have hkind : dispatch b0 = .luma := hluma.2 ⟨hl, hu⟩
  exact ⟨step_luma_truncated hs hb hkind, fun b1 => step_luma hs hb hkind⟩

end Sys2Proof.Machine
end

section
/-! PROOFS. The statement of 45_run.md, the run chunk RUN (R180), with what every chunk does that is clipped at `N`. -/

namespace Sys2Proof.Machine

/-! ### A chunk clipped at `N` (R124, R125) -/

/-- `CLIPPED` after a chunk records whether its repeat count exceeds the pixels needed. -/
theorem State.clippedAfter_eq (s : State) (k : Nat) :
    s.clippedAfter k = (s.clipped || decide (s.n - s.count < k)) := by
  simp only [State.clippedAfter, State.kept_lt_iff]

/-- With pixels still needed, a chunk that repeats its pixel at least as often as they are ends the decode. -/
theorem State.completeChunk_done_of_needed_le {s : State} {k : Nat} (hc : s.count < s.n) (hk : s.n - s.count ≤ k)
    (p : Pixel) (n : Nat) : (s.completeChunk p k n).phase = .done := by
  have hkept : s.kept k = s.n - s.count := Nat.min_eq_right hk
  have hall : s.out.length + s.kept k = s.n := hkept ▸ Nat.add_sub_of_le hc.le
  rw [State.completeChunk_phase, if_pos hall]

/-! ### RUN (R180) -/

/-- A lead byte from `0xC0` to `0xFD` is a RUN chunk, its field the byte's low six bits. -/
theorem step_run {s : State} {b0 : Byte} (hs : s.AtChunk) (hb : s.inByte s.pos = some b0) (hl : 0xC0 ≤ b0.toNat)
    (hu : b0.toNat ≤ 0xFD) : step s = exec (.run (BitVec.ofNat 6 b0.toNat)) s := by
  obtain ⟨-, -, -, hrun, -⟩ := leadBytesPartitionIntoSixKinds b0
  have hkind : dispatch b0 = .run := hrun.2 ⟨hl, hu⟩
  rw [← low_field_eq_ofNat]
  exact step_one_byte_chunk hs hb (by rw [chunkLen_eq, hkind]) (decodeChunk_run hkind [])

/-- Settles O46: RUN is the chunk that produces `PREV`, repeated its field plus one times; the lead bytes from `0xC0` to
`0xFD` run it. -/
theorem runRepeatsThePreviousPixel : Obligations.RunRepeatsThePreviousPixel := by
  refine ⟨fun s n hc => ⟨_, exec_chunk (i := .run n) rfl s, s.completeChunk_effect .., State.completeChunk_prev ..,
    ?clipped, fun hk => ?done⟩, fun _ _ => step_run⟩
  case clipped => exact (State.completeChunk_clipped ..).trans (s.clippedAfter_eq _)
  case done => exact State.completeChunk_done_of_needed_le hc hk.le ..

end Sys2Proof.Machine
end

section
/-! PROOFS. The statements of 60_exceptions.md: what the error registers say (R200, R201), that an error is precise (R206)
and left by a command only (R207), that `PixelCountExceeded` is never raised (R205), and how a decode ends (R208). -/

namespace Sys2Proof.Machine

/-! ### A short header (R201) -/

/-- Settles O25: fetching raises `MalformedHeader`, and under the invariant the state before the header step is fresh. -/
theorem shortHeaderIsMalformed : Obligations.ShortHeaderIsMalformed := by
  intro s hs hl
  refine ⟨by rw [step_header hs, fetchHeader_short hl]; rfl, fun h => ?_⟩
  have hf := h.unstarted (.inr hs.phase)
  exact ⟨hf.pos, hf.hdrMagic, hf.hdrWidth, hf.hdrHeight, hf.hdrChannels, hf.hdrColorspace⟩

/-! ### What the error registers say (R200) -/

/-- No error kind has a code above 5. -/
theorem ErrKind.code_toNat_le (e : ErrKind) : e.code.toNat ≤ 5 := by
  cases e <;> decide

/-- No state of the invariant holds `PixelCountExceeded`, of which there is no record. -/
theorem State.Inv.errCode_ne_pixelCountExceeded {s : State} (h : s.Inv) : s.errCode ≠ .pixelCountExceeded := by
  intro hc
  have hr := h.errorRecord
  rw [State.RecordsError, hc] at hr
  exact hr

/-- Settles O48: the record of each code, which the invariant keeps in every reachable state. -/
theorem errorRegistersTellWhatFailed : Obligations.ErrorRegistersTellWhatFailed := by
  refine ⟨⟨rfl, rfl, rfl, rfl, rfl, rfl, ErrKind.code_toNat_le⟩, fun s hreach => ?_⟩
  have h := hreach.inv
  have hr := h.errorRecord
  unfold State.RecordsError at hr
  refine ⟨by rw [ne_eq, h.errorPhase, not_not], fun hc => ?noError, fun hc => ?malformedHeader,
    fun hc => ?invalidHeaderField, fun hc => ?truncatedStream, fun hc => ?pixelCountShort,
    h.errCode_ne_pixelCountExceeded⟩ <;> rw [hc] at hr
  case noError => exact hr
  case malformedHeader =>
    obtain ⟨hl, hf, hv, -⟩ := hr
    exact ⟨hl, hf, hv⟩
  case invalidHeaderField =>
    obtain ⟨-, -, hmagic | ⟨hf, hv, -, hch⟩ | ⟨hf, hv, -, -, hcs⟩⟩ := hr
    · exact .inl hmagic
    · exact .inr (.inl ⟨hf, hv ▸ BitVec.toNat_setWidth_of_le (by decide), hch⟩)
    · exact .inr (.inr ⟨hf, hv ▸ BitVec.toNat_setWidth_of_le (by decide), hcs⟩)
  case truncatedStream =>
    obtain ⟨-, -, hf, b0, hb, hv, hl⟩ := hr
    exact ⟨hf, b0, hb, hl, hv ▸ BitVec.toNat_setWidth_of_le (by decide)⟩
  case pixelCountShort =>
    obtain ⟨-, hcount, hf, hv, hp⟩ := hr
    exact ⟨hf, hv, hp, hcount⟩

/-! ### Error entry (R205, R206) -/

/-- A step without a command raises in the header step, over header registers it may have written; raises in a chunk step,
over the state as it is; or keeps `ERR_CODE`, and then stands at ERROR only if it waited there. -/
theorem step_raises_or_keeps {s t : State} (hn : s.hostCmd = none) (h : step s = .next t) :
    (s.phase = .header ∧ ∃ m w ht ch cs e f v, e ≠ .pixelCountExceeded ∧
      t = (s.writeHeader m w ht ch cs).raise e f v) ∨
    (s.phase = .decode ∧ ∃ e f v, e ≠ .pixelCountExceeded ∧ t = s.raise e f v) ∨
    (t.errCode = s.errCode ∧ (t.phase = .error → s.phase = .error)) := by
  rcases step_next_cases hn h with ⟨-, rfl⟩ | ⟨hp, -, rfl⟩ | ⟨hp, -, m, w, ht, ch, cs, f, v, -, rfl⟩ |
    ⟨-, -, m, w, ht, ch, cs, -, -, rfl⟩ | ⟨hp, -, rfl⟩ | ⟨hp, b0, -, -, rfl⟩ | ⟨-, b0, i, -, -, -, -, -, -, rfl⟩
  · exact .inr (.inr ⟨rfl, id⟩)
  · exact .inl ⟨hp, s.hdrMagic, s.hdrWidth, s.hdrHeight, s.hdrChannels, s.hdrColorspace, _, _, _, by decide, rfl⟩
  · exact .inl ⟨hp, m, w, ht, ch, cs, _, f, v, by decide, rfl⟩
  · refine .inr (.inr ⟨rfl, fun he => ?_⟩)
    rw [State.openStream_phase] at he
    split at he <;> cases he
  · exact .inr (.inl ⟨hp, _, _, _, by decide, rfl⟩)
  · exact .inr (.inl ⟨hp, _, _, _, by decide, rfl⟩)
  · refine .inr (.inr ⟨State.completeChunk_errCode .., fun he => ?_⟩)
    rw [State.completeChunk_phase] at he
    split at he
    · cases he
    · exact he

/-- Settles O49: a step that enters ERROR raises, and `raise` writes the error record and the phase. -/
theorem errorEntryIsPrecise : Obligations.ErrorEntryIsPrecise := by
  refine ⟨fun _ _ _ _ => rfl, fun s t hn hne h he => ?_⟩
  rcases step_raises_or_keeps hn h with ⟨hp, m, w, ht, ch, cs, e, f, v, -, rfl⟩ | ⟨hp, e, f, v, -, rfl⟩ | ⟨-, hkeep⟩
  · exact ⟨fun hd => by simp [hp] at hd, fun _ => rfl, .inr hp⟩
  · exact ⟨fun _ => rfl, fun hh => by simp [hp] at hh, .inl hp⟩
  · exact absurd (hkeep he) hne

/-- A step, a command taken among them, holds `PixelCountExceeded` only if it stood there before. -/
theorem step_pixelCountExceeded {s t : State} (h : step s = .next t) (hc : t.errCode = .pixelCountExceeded) :
    s.errCode = .pixelCountExceeded := by
  match hn : s.hostCmd with
  | none =>
    rcases step_raises_or_keeps hn h with ⟨-, m, w, ht, ch, cs, e, f, v, hne, rfl⟩ | ⟨-, e, f, v, hne, rfl⟩ | ⟨hkeep, -⟩
    · exact absurd hc hne
    · exact absurd hc hne
    · exact hkeep.symm.trans hc
  | some .reset =>
    rw [step_reset_next hn h] at hc
    cases hc
  | some (.start bytes) =>
    rw [step_start_next hn h] at hc
    cases hc

/-- Settles O52: no error a step raises is `PixelCountExceeded`, and the invariant bounds `COUNT` in every reachable
state. -/
theorem pixelCountExceededIsNeverRaised : Obligations.PixelCountExceededIsNeverRaised :=
  ⟨fun _ _ => step_pixelCountExceeded, fun _ hr => ⟨hr.inv.errCode_ne_pixelCountExceeded, hr.inv.countLe⟩⟩

/-! ### ERROR is left by a command only (R207) -/

/-- A state whose step answers itself is where every run from it stands. -/
theorem hostRun_of_step_self (M : Host.Core) {s : M.State} (h : M.step s = .next s) (k : Nat) : M.run k s = .next s := by
  induction k with
  | zero => rfl
  | succ k ih => rw [hostRun_next M h, ih]

/-- Settles O51: without a command the block waits at ERROR, so it is a command that leaves it. -/
theorem errorIsLeftByCommandOnly : Obligations.ErrorIsLeftByCommandOnly := by
  intro s hp
  have waits (hn : s.hostCmd = none) : step s = .next s := step_waits hn (.inr (.inr hp))
  refine ⟨fun hn k t h => ?stays, fun t h hne => ?left⟩
  case stays =>
    have hstay := hostRun_of_step_self core (waits hn) k
    rw [hstay] at h
    cases h
    rfl
  case left =>
    match hn : s.hostCmd with
    | none =>
      rw [waits hn] at h
      cases h
      exact absurd hp hne
    | some .reset => exact .inl rfl
    | some (.start bytes) => exact .inr ⟨bytes, rfl⟩

/-! ### How a decode ends (R208) -/

/-- What every step keeps, every run keeps. -/
theorem hostRun_keeps (M : Host.Core) {P : M.State → Prop} (hP : ∀ s t, P s → M.step s = .next t → P t) {k : Nat}
    {s t : M.State} (hs : P s) (h : M.run k s = .next t) : P t := by
  induction k generalizing s with
  | zero => cases h; exact hs
  | succ k ih =>
    rw [Host.Core.run] at h
    rcases hstep : M.step s with u | r | r <;> rw [hstep] at h
    · exact ih (hP s u hs hstep) h
    · cases h
    · cases h

/-- Every run keeps the invariant. -/
theorem State.Inv.run_next {s t : State} (h : s.Inv) {k : Nat} (hr : core.run k s = .next t) : t.Inv :=
  hostRun_keeps core (P := State.Inv) (fun _ _ => State.Inv.step_next) h hr

/-- At DONE the handover is the whole image, and no error is recorded. -/
theorem State.Inv.outcome_at_done {s : State} (h : s.Inv) (hp : s.phase = .done) : s.errCode = .noError ∧
    ∃ px, s.handover = some (s.hdrWidth, s.hdrHeight, px) ∧ px.length = s.hdrWidth.toNat * s.hdrHeight.toNat :=
  ⟨h.noError (by simp [hp]), s.out, State.handover_of_done hp, h.count_at_done hp⟩

/-- At ERROR one of four kinds is recorded, the two of the header step before any pixel. -/
theorem State.Inv.errCode_at_error {s : State} (h : s.Inv) (hp : s.phase = .error) :
    ((s.errCode = .malformedHeader ∨ s.errCode = .invalidHeaderField) ∧ s.out = []) ∨
      s.errCode = .truncatedStream ∨ s.errCode = .pixelCountShort := by
  have hr := h.errorRecord
  unfold State.RecordsError at hr
  cases hc : s.errCode <;> rw [hc] at hr
  case noError => exact absurd hc (h.errorPhase.1 hp)
  case malformedHeader =>
    obtain ⟨-, -, -, -, ho, -⟩ := hr
    exact .inl ⟨.inl rfl, ho⟩
  case invalidHeaderField =>
    obtain ⟨-, ho, -⟩ := hr
    exact .inl ⟨.inr rfl, ho⟩
  case truncatedStream => exact .inr (.inl rfl)
  case pixelCountShort => exact .inr (.inr rfl)
  case pixelCountExceeded => exact hr.elim

/-- A header step ends the decode, leaves a chunk step to take, or is refused for its total. -/
theorem step_header_ends_or_opens {s : State} (hs : s.AtHeader) :
    (∃ t, step s = .next t ∧ (t.Ended ∨ t.AtChunk)) ∨ step s = .refused .outCapacityExceeded := by
  rcases step_header_cases hs with ⟨-, e⟩ | ⟨-, m, w, h, ch, cs, -, -, ⟨f, v, -, e⟩ | ⟨-, -, e⟩ | ⟨-, -, e⟩⟩
  · exact .inl ⟨_, e, .inl (.inr rfl)⟩
  · exact .inl ⟨_, e, .inl (.inr rfl)⟩
  · refine .inl ⟨_, e, ?_⟩
    by_cases hz : w.toNat * h.toNat = 0
    · exact .inl (.inl (by rw [State.openStream_phase, if_pos hz]))
    · exact .inr ⟨by rw [State.openStream_phase, if_neg hz], hs.noCmd⟩
  · exact .inr e

/-- From a header step, the decode ends within one step a byte and two more, unless the header's total is refused. -/
theorem run_from_header_ends {s : State} (h : s.Inv) (hs : s.AtHeader) :
    (∃ k t, k ≤ s.len + 2 ∧ core.run k s = .next t ∧ t.Ended) ∨ step s = .refused .outCapacityExceeded := by
  refine (step_header_ends_or_opens hs).imp_left fun ⟨t, ht, hnext⟩ => ?_
  rcases hnext with hend | hchunk
  · exact ⟨1, t, by omega, run_succ ht 0, hend⟩
  · have hlen := (step_input_len hs.noCmd ht).2
    obtain ⟨k, u, hk, hrun, hu⟩ := run_from_chunk_ends hchunk (h.step_next ht).posLe
    exact ⟨k + 1, u, by omega, (run_succ ht k).trans hrun, hu⟩

/-- Settles O53: START loads a state of the invariant, the run from its header step ends or is refused, and the invariant
says what each end shows. -/
theorem everyStartedDecodeSucceedsWholeOrFailsByName : Obligations.EveryStartedDecodeSucceedsWholeOrFailsByName := by
  intro s bytes hs
  have hstart : step (s.issue (.start bytes)) = .next (s.start bytes) :=
    step_start_accepted rfl (s.acceptsStart_iff.1 hs)
  have hinv := s.start_inv bytes
  rcases run_from_header_ends hinv ⟨rfl, rfl⟩ with ⟨k, t, hk, hrun, hend⟩ | hrefused
  · refine .inl ⟨k + 1, t, Nat.succ_le_succ hk, (run_succ hstart k).trans hrun, ?_⟩
    have ht := hinv.run_next hrun
    rcases hend with hp | hp
    · exact .inl ⟨hp, ht.outcome_at_done hp⟩
    · exact .inr ⟨hp, State.handover_of_ne_done (by simp [hp]), ht.errCode_at_error hp⟩
  · exact .inr ⟨2, le_rfl, (run_succ hstart 1).trans (run_succ_refused hrefused 0)⟩

end Sys2Proof.Machine
end

section
/-! PROOFS. The statements of 70_reset_and_hazards.md: RESET (R230) and that a decode depends on its input alone (R236). -/

namespace Sys2Proof.Machine

/-! ### A decode depends on its input alone (R236) -/

/-- Of the state before it, START keeps the platform's output capacity and nothing else. -/
theorem State.start_eq_of_outCapacity {s s' : State} (h : s.outCapacity = s'.outCapacity) (bytes : List Byte) :
    s.start bytes = s'.start bytes := by
  unfold State.start
  rw [h]

/-- In a state that accepts START, the next step takes the START that the host issues. -/
theorem step_issue_start {s : State} (h : s.acceptsStart = true) (bytes : List Byte) :
    step (s.issue (.start bytes)) = .next (s.start bytes) :=
  step_start_accepted rfl (s.acceptsStart_iff.1 h)

/-- Settles O8: START brings both runs to the same state, so they agree from there on. -/
theorem outcomeDependsOnlyOnTheInput : Obligations.OutcomeDependsOnlyOnTheInput := by
  intro s s' bytes hs hs' hcap k
  calc core.run (k + 1) (s.issue (.start bytes))
      = core.run k (s.start bytes) := run_succ (step_issue_start hs bytes) k
    _ = core.run k (s'.start bytes) := by rw [State.start_eq_of_outCapacity hcap]
    _ = core.run (k + 1) (s'.issue (.start bytes)) := (run_succ (step_issue_start hs' bytes) k).symm

/-! ### RESET (R230) -/

/-- The state after START has the header step before it. -/
theorem State.start_atHeader (s : State) (bytes : List Byte) : (s.start bytes).AtHeader := ⟨rfl, rfl⟩

/-- Settles O5: the next state is `State.hostReset`, which is fresh and idle, so it hands nothing over and accepts
START. -/
theorem resetCommandResetsFromAnyPhase : Obligations.ResetCommandResetsFromAnyPhase := by
  intro s hc
  have hidle : s.hostReset.phase ≠ .done := by simp
  refine ⟨s.hostReset, step_reset hc, rfl, s.hostReset_fresh, State.handover_of_ne_done hidle, rfl, rfl, fun bytes => ?_⟩
  exact ⟨s.hostReset.start bytes, step_issue_start rfl bytes, State.start_atHeader _ bytes, rfl⟩

end Sys2Proof.Machine
end

section
/-! PROOFS. The statements of 30_encoding.md on writing and reading back: decoding an encoding and encoding what was
decoded (R71, R75), the biases (R76), words written out, and the assembler notation (R82). -/

namespace Sys2Proof.Machine

/-! ### Lead bytes put together from a tag and fields (R74, R75) -/

/-- Bits in front of other bits, as a number. -/
theorem append_toNat {m n : Nat} (x : BitVec m) (y : BitVec n) : (x ++ y).toNat = x.toNat * 2 ^ n + y.toNat := by
  rw [BitVec.toNat_append, ← Nat.shiftLeft_add_eq_or_of_lt y.isLt, Nat.shiftLeft_eq]

theorem dispatch_index_lead (idx : BitVec 6) : dispatch (0b00#2 ++ idx) = .index := by
  obtain ⟨hindex, -, -, -, -, -⟩ := leadBytesPartitionIntoSixKinds (0b00#2 ++ idx)
  have hf := idx.isLt
  have hlead : (0b00#2 ++ idx).toNat = idx.toNat := by rw [append_toNat]; simp
  exact hindex.2 (by omega)

theorem dispatch_diff_lead (dr dg db : BitVec 2) : dispatch (0b01#2 ++ dr ++ dg ++ db) = .diff := by
  obtain ⟨-, hdiff, -, -, -, -⟩ := leadBytesPartitionIntoSixKinds (0b01#2 ++ dr ++ dg ++ db)
  have hr := dr.isLt
  have hg := dg.isLt
  have hb := db.isLt
  have hlead : (0b01#2 ++ dr ++ dg ++ db).toNat = ((1 * 4 + dr.toNat) * 4 + dg.toNat) * 4 + db.toNat := by
    simp only [append_toNat]; rfl
  exact hdiff.2 (by omega)

theorem dispatch_luma_lead (dg : BitVec 6) : dispatch (0b10#2 ++ dg) = .luma := by
  obtain ⟨-, -, hluma, -, -, -⟩ := leadBytesPartitionIntoSixKinds (0b10#2 ++ dg)
  have hf := dg.isLt
  have hlead : (0b10#2 ++ dg).toNat = 2 * 64 + dg.toNat := append_toNat _ _
  exact hluma.2 (by omega)

/-- Only a field of at most 61 makes a RUN lead byte (R77). -/
theorem dispatch_run_lead {n : BitVec 6} (h : n.toNat < 62) : dispatch (0b11#2 ++ n) = .run := by
  obtain ⟨-, -, -, hrun, -, -⟩ := leadBytesPartitionIntoSixKinds (0b11#2 ++ n)
  have hlead : (0b11#2 ++ n).toNat = 3 * 64 + n.toNat := append_toNat _ _
  exact hrun.2 (by omega)

/-- The three fields of a DIFF lead byte, read back. -/
theorem diff_lead_fields (dr dg db : BitVec 2) :
    (0b01#2 ++ dr ++ dg ++ db).extractLsb' 4 2 = dr ∧ (0b01#2 ++ dr ++ dg ++ db).extractLsb' 2 2 = dg ∧
      (0b01#2 ++ dr ++ dg ++ db).extractLsb' 0 2 = db := by
  refine ⟨?_, ?_, BitVec.extractLsb'_append_eq_right⟩
  · rw [BitVec.extractLsb'_append_eq_of_le (by decide), BitVec.extractLsb'_append_eq_of_le (by decide)]
    exact BitVec.extractLsb'_append_eq_right
  · rw [BitVec.extractLsb'_append_eq_of_le (by decide)]
    exact BitVec.extractLsb'_append_eq_right

/-! ### Decoding an encoding (R71, R75) -/

/-- A header decodes from its encoding, whatever its fields. -/
theorem decodeHeader_encode (m w h : Word) (ch cs : Byte) (rest : List Byte) :
    decodeHeader (encode (.header m w h ch cs) ++ rest) = .ok (.header m w h ch cs, rest) := by
  simp only [encode, be32Bytes, List.cons_append, List.nil_append, decodeHeader, be32_be32Bytes]

/-- Settles O20: each kind's lead byte selects that kind, and the fields stand where they were put. -/
theorem decodeOfEncodeIsTheInstruction : Obligations.DecodeOfEncodeIsTheInstruction := by
  intro i rest hw
  cases i with
  | header m w h ch cs => exact decodeHeader_encode m w h ch cs rest
  | rgb r g b => exact decodeChunk_rgb (b0 := 0xFE#8) rfl r g b rest
  | rgba r g b a => exact decodeChunk_rgba (b0 := 0xFF#8) rfl r g b a rest
  | index idx =>
    refine (decodeChunk_index (dispatch_index_lead idx) rest).trans ?_
    rw [BitVec.extractLsb'_append_eq_right]
  | diff dr dg db =>
    obtain ⟨hr, hg, hb⟩ := diff_lead_fields dr dg db
    refine (decodeChunk_diff (dispatch_diff_lead dr dg db) rest).trans ?_
    rw [hr, hg, hb]
  | luma dg x y =>
    refine (decodeChunk_luma (dispatch_luma_lead dg) (x ++ y) rest).trans ?_
    rw [BitVec.extractLsb'_append_eq_right, BitVec.extractLsb'_append_eq_left, BitVec.extractLsb'_append_eq_right]
  | run n =>
    have hn : n.toNat < 62 := of_decide_eq_true hw
    refine (decodeChunk_run (dispatch_run_lead hn) rest).trans ?_
    rw [BitVec.extractLsb'_append_eq_right]

/-! ### Encoding what was decoded (R71, R75) -/

/-- A byte is its two halves, put together. -/
theorem high_append_low (b : Byte) : b.extractLsb' 4 4 ++ b.extractLsb' 0 4 = b :=
  (BitVec.extractLsb'_append_extractLsb'_eq_extractLsb' (start₂ := 4) rfl).trans BitVec.extractLsb'_eq_self

/-- A byte is its two-bit tag and the six bits below it, put together. -/
theorem tag_append_low {b : Byte} {tag : Nat} (h : b.toNat / 64 = tag) :
    BitVec.ofNat 2 tag ++ b.extractLsb' 0 6 = b := by
  have htag : b.extractLsb' 6 2 = BitVec.ofNat 2 tag := by
    rw [← h, ← tag_toNat, BitVec.ofNat_toNat, BitVec.setWidth_eq]
  rw [← htag]
  exact (BitVec.extractLsb'_append_extractLsb'_eq_extractLsb' (start₂ := 6) rfl).trans BitVec.extractLsb'_eq_self

/-- The six bits of a DIFF lead byte below the tag are its three fields. -/
theorem diff_fields_append (b : Byte) (tag : BitVec 2) :
    tag ++ b.extractLsb' 4 2 ++ b.extractLsb' 2 2 ++ b.extractLsb' 0 2 = tag ++ b.extractLsb' 0 6 := by
  apply BitVec.eq_of_toNat_eq
  simp only [append_toNat, field_toNat]
  omega

/-- The bytes of a chunk that decodes are its encoding and what was left. -/
theorem encode_of_decodeChunk {bs rest : List Byte} {i : Instr} (h : decodeChunk bs = .ok (i, rest)) :
    encode i ++ rest = bs := by
  match bs, h with
  | b0 :: tl, h =>
    obtain ⟨hindex, hdiff, hluma, hrun, hrgb, hrgba⟩ := leadBytesPartitionIntoSixKinds b0
    cases hk : dispatch b0 <;> simp only [decodeChunk, hk] at h
    case rgb =>
      have hb : b0 = 0xFE#8 := BitVec.eq_of_toNat_eq (hrgb.1 hk)
      split at h <;> cases h
      rw [hb]; rfl
    case rgba =>
      have hb : b0 = 0xFF#8 := BitVec.eq_of_toNat_eq (hrgba.1 hk)
      split at h <;> cases h
      rw [hb]; rfl
    case index =>
      have hb := hindex.1 hk
      cases h
      exact congrArg (· :: rest) (tag_append_low (by omega))
    case diff =>
      have hb := hdiff.1 hk
      cases h
      exact congrArg (· :: rest)
        ((diff_fields_append b0 _).trans (tag_append_low (by omega)))
    case luma =>
      have hb := hluma.1 hk
      split at h <;> cases h
      next b1 =>
      exact congrArg₂ (· :: · :: rest) (tag_append_low (by omega)) (high_append_low b1)
    case run =>
      have hb := hrun.1 hk
      cases h
      exact congrArg (· :: rest) (tag_append_low (by omega))

/-- The bytes of a header that decodes are its encoding and what was left. -/
theorem encode_of_decodeHeader {bs rest : List Byte} {i : Instr} (h : decodeHeader bs = .ok (i, rest)) :
    encode i ++ rest = bs := by
  unfold decodeHeader at h
  split at h <;> cases h
  simp only [encode, be32Bytes_be32, List.cons_append, List.nil_append]

/-- Settles O21: what decodes is well formed and of its place, and the fields put together again give its bytes. -/
theorem encodeOfDecodeIsTheBytes : Obligations.EncodeOfDecodeIsTheBytes := by
  intro p bs rest i h
  cases p with
  | header =>
    obtain ⟨hp, hw, -, -⟩ := decodeHeader_ok h
    exact ⟨hp, hw, encode_of_decodeHeader h⟩
  | chunk =>
    obtain ⟨_, _, -, hp, hw, -, -, -⟩ := decodeChunk_ok h
    exact ⟨hp, hw, encode_of_decodeChunk h⟩


/-! ### How fields become operands (R76), and words written out (R71, R75) -/

/-- Settles O18: each bias is the model's definition, and a field's width bounds it. -/
theorem fieldsBecomeBiasedOperands : Obligations.FieldsBecomeBiasedOperands := by
  refine ⟨fun f => ⟨rfl, ?_⟩, fun f => ⟨rfl, ?_⟩, fun dg f => ⟨rfl, ?_⟩, fun f => rfl⟩
  · have h := f.isLt
    unfold diffDelta
    omega
  · have h := f.isLt
    unfold lumaGreen
    omega
  · have hg := dg.isLt
    have h := f.isLt
    unfold lumaSide lumaGreen
    omega

/-- Settles O22: each word is decoded by evaluation. -/
theorem wordsOfTheSpecDecode : Obligations.WordsOfTheSpecDecode :=
  ⟨rfl, rfl, rfl, rfl, rfl, rfl, rfl⟩

/-! ### The assembler notation (R82) -/

/-- The field that an operand in its range becomes: the operand less the least it may be (R82). -/
def operandField (width : Nat) (lo x : Int) : BitVec width := BitVec.ofInt width (x - lo)

/-- What a line makes of an operand's field, none outside the operand's range. -/
theorem asmField_bind {α : Type} (width : Nat) (lo hi x : Int) (k : BitVec width → Option α) :
    (asmField width lo hi x).bind k = if lo ≤ x ∧ x ≤ hi then k (operandField width lo x) else none := by
  unfold asmField
  split <;> rfl

/-- A field wide enough for the operand's range holds the operand less the least it may be. -/
theorem operandField_toNat {w : Nat} {lo hi x : Int} (h : lo ≤ x ∧ x ≤ hi) (hw : hi - lo < (2 ^ w : Nat)) :
    ((operandField w lo x).toNat : Int) = x - lo := by
  have hmod : (x - lo) % (2 ^ w : Nat) = x - lo := Int.emod_eq_of_lt (by omega) (by omega)
  rw [operandField, BitVec.toNat_ofInt, hmod, Int.toNat_of_nonneg (by omega)]

section
variable {x : Int}

theorem unsigned_operand {w : Nat} {hi : Int} (h : 0 ≤ x ∧ x ≤ hi) (hw : hi - 0 < (2 ^ w : Nat)) :
    ((operandField w 0 x).toNat : Int) = x :=
  (operandField_toNat h hw).trans (Int.sub_zero x)

theorem diffDelta_operand (h : -2 ≤ x ∧ x ≤ 1) : diffDelta (operandField 2 (-2) x) = x := by
  rw [diffDelta, operandField_toNat h (by decide)]
  omega

theorem lumaGreen_operand (h : -32 ≤ x ∧ x ≤ 31) : lumaGreen (operandField 6 (-32) x) = x := by
  rw [lumaGreen, operandField_toNat h (by decide)]
  omega

theorem lumaSide_operand {dg : Int} (hg : -32 ≤ dg ∧ dg ≤ 31) (h : -8 ≤ x ∧ x ≤ 7) :
    lumaSide (operandField 6 (-32) dg) (operandField 4 (-8) x) - dg = x := by
  rw [lumaSide, lumaGreen_operand hg, operandField_toNat h (by decide)]
  omega

theorem runLength_operand (h : 1 ≤ x ∧ x ≤ 62) : (runLength (operandField 6 1 x) : Int) = x := by
  rw [runLength, Nat.cast_add, operandField_toNat h (by decide)]
  omega

/-- A RUN operand in its range makes a well-formed field (R77). -/
theorem wellFormed_run_operand (h : 1 ≤ x ∧ x ≤ 62) : (Instr.run (operandField 6 1 x)).wellFormed = true := by
  have hf := operandField_toNat (w := 6) h (by decide)
  refine decide_eq_true ?_
  rw [Config.runMax]
  omega

end

/-- The program of the one line `l` is the encoding of `i` if the operands are in range (`ok`), and is rejected if not. -/
def Assembles (l : AsmLine) (ok : Prop) [Decidable ok] (i : Instr) : Prop :=
  assemble [l] = if ok then some (encode i) else none

/-- A program of one line is that line under the magic of R72. -/
theorem assemble_singleton (l : AsmLine) : assemble [l] = assembleLine Config.magic l := by
  simp [assemble, assembleFrom]

theorem assembles_rgb (r g b : Int) :
    Assembles (.rgb r g b) ((0 ≤ r ∧ r ≤ 255) ∧ (0 ≤ g ∧ g ≤ 255) ∧ (0 ≤ b ∧ b ≤ 255))
      (.rgb (operandField 8 0 r) (operandField 8 0 g) (operandField 8 0 b)) := by
  simp only [Assembles, assemble_singleton, assembleLine, Option.bind_eq_bind, asmField_bind, Option.pure_def, ite_and]

theorem assembles_rgba (r g b a : Int) :
    Assembles (.rgba r g b a) ((0 ≤ r ∧ r ≤ 255) ∧ (0 ≤ g ∧ g ≤ 255) ∧ (0 ≤ b ∧ b ≤ 255) ∧ (0 ≤ a ∧ a ≤ 255))
      (.rgba (operandField 8 0 r) (operandField 8 0 g) (operandField 8 0 b) (operandField 8 0 a)) := by
  simp only [Assembles, assemble_singleton, assembleLine, Option.bind_eq_bind, asmField_bind, Option.pure_def, ite_and]

theorem assembles_index (x : Int) : Assembles (.index x) (0 ≤ x ∧ x ≤ 63) (.index (operandField 6 0 x)) := by
  simp only [Assembles, assemble_singleton, assembleLine, Option.bind_eq_bind, asmField_bind, Option.pure_def]

theorem assembles_diff (dr dg db : Int) :
    Assembles (.diff dr dg db) ((-2 ≤ dr ∧ dr ≤ 1) ∧ (-2 ≤ dg ∧ dg ≤ 1) ∧ (-2 ≤ db ∧ db ≤ 1))
      (.diff (operandField 2 (-2) dr) (operandField 2 (-2) dg) (operandField 2 (-2) db)) := by
  simp only [Assembles, assemble_singleton, assembleLine, Option.bind_eq_bind, asmField_bind, Option.pure_def, ite_and]

theorem assembles_luma (dg x y : Int) :
    Assembles (.luma dg x y) ((-32 ≤ dg ∧ dg ≤ 31) ∧ (-8 ≤ x ∧ x ≤ 7) ∧ (-8 ≤ y ∧ y ≤ 7))
      (.luma (operandField 6 (-32) dg) (operandField 4 (-8) x) (operandField 4 (-8) y)) := by
  simp only [Assembles, assemble_singleton, assembleLine, Option.bind_eq_bind, asmField_bind, Option.pure_def, ite_and]

theorem assembles_run (x : Int) : Assembles (.run x) (1 ≤ x ∧ x ≤ 62) (.run (operandField 6 1 x)) := by
  simp only [Assembles, assemble_singleton, assembleLine, Option.bind_eq_bind, asmField_bind, Option.pure_def]

/-- A chunk's line is rejected exactly when an operand is out of range; the bytes it assembles to otherwise decode to its
instruction, and so have whatever that makes true of them. -/
theorem Assembles.decodes {l : AsmLine} {i : Instr} {ok : Prop} [Decidable ok] {P : List Byte → Prop}
    (h : Assembles l ok i) (hp : i.place = .chunk) (hw : ok → i.wellFormed = true)
    (hP : ok → ∀ bs, decode .chunk bs = .ok (i, []) → P bs) :
    (assemble [l] = none ↔ ¬ ok) ∧ ∀ bs, assemble [l] = some bs → P bs := by
  rw [Assembles] at h
  rw [h]
  refine ⟨by simp, fun bs hbs => ?_⟩
  obtain ⟨hok, hbytes⟩ := Option.ite_none_right_eq_some.1 hbs
  have hd := decodeOfEncodeIsTheInstruction i [] (hw hok)
  rw [hp, List.append_nil, Option.some.inj hbytes] at hd
  exact hP hok bs hd

/-- Settles O23: each line assembles to the encoding of its fields, which decodes to them; with its bias each field is the
operand written. -/
theorem assembledChunksDecodeToTheirOperands : Obligations.AssembledChunksDecodeToTheirOperands := by
  refine ⟨fun r g b => ?rgb, fun r g b a => ?rgba, fun x => ?index, fun dr dg db => ?diff, fun dg x y => ?luma,
    fun x => ?run⟩
  case rgb =>
    exact (assembles_rgb r g b).decodes rfl (fun _ => rfl) fun ⟨hr, hg, hb⟩ _ hd => ⟨_, _, _, hd,
      unsigned_operand hr (by decide), unsigned_operand hg (by decide), unsigned_operand hb (by decide)⟩
  case rgba =>
    exact (assembles_rgba r g b a).decodes rfl (fun _ => rfl) fun ⟨hr, hg, hb, ha⟩ _ hd => ⟨_, _, _, _, hd,
      unsigned_operand hr (by decide), unsigned_operand hg (by decide), unsigned_operand hb (by decide),
      unsigned_operand ha (by decide)⟩
  case index =>
    exact (assembles_index x).decodes rfl (fun _ => rfl) fun hx _ hd => ⟨_, hd, unsigned_operand hx (by decide)⟩
  case diff =>
    exact (assembles_diff dr dg db).decodes rfl (fun _ => rfl) fun ⟨hr, hg, hb⟩ _ hd =>
      ⟨_, _, _, hd, diffDelta_operand hr, diffDelta_operand hg, diffDelta_operand hb⟩
  case luma =>
    exact (assembles_luma dg x y).decodes rfl (fun _ => rfl) fun ⟨hg, hx, hy⟩ _ hd =>
      ⟨_, _, _, hd, lumaGreen_operand hg, lumaSide_operand hg hx, lumaSide_operand hg hy⟩
  case run =>
    exact (assembles_run x).decodes rfl wellFormed_run_operand fun hx _ hd => ⟨_, hd, runLength_operand hx⟩

end Sys2Proof.Machine
end

section
/-! PROOFS. The statements of 10_state.md on pixels (R20), phases (R21) and which step writes which registers (R23, R29),
with the canonical memories of `IN` (20_memory.md), START while busy (R232), and the machine's invariant: it holds at
reset, every step keeps it, and what it makes of the outcomes of a step and of the hardware's widths. -/

namespace Sys2Proof.Machine

/-! ### A pixel as a word (R20) -/

/-- Settles O1: a pixel is packed as its four bytes are read big-endian. -/
theorem pixelPacksRedHighest : Obligations.PixelPacksRedHighest :=
  fun p => be32_toNat p.r p.g p.b p.a

/-! ### Canonical memories (log entry 8) -/

theorem Memory.read_head (c : Host.Cell) (m : Memory) : Memory.read (c :: m) c.1 = c.2 := if_pos rfl

/-- The cells after the first read as zero at its address, and elsewhere as the whole does. -/
theorem Memory.read_tail {c : Host.Cell} {m : Memory} (h : Memory.wf (c :: m)) (a : Nat) :
    Memory.read m a = if a = c.1 then 0#8 else Memory.read (c :: m) a := by
  split
  · next ha => rw [ha, Memory.read_of_lt (Memory.head_lt h)]
  · next ha => exact (if_neg ha).symm

/-- A memory that reads alike at a canonical memory's first address lists a cell there or below: no zero byte is
listed. -/
theorem Memory.exists_le_head {c : Host.Cell} {m m' : Memory} (h : Memory.wf (c :: m))
    (hr : Memory.read (c :: m) c.1 = Memory.read m' c.1) : ∃ x ∈ m', x.1 ≤ c.1 := by
  by_contra hnone
  push Not at hnone
  rw [Memory.read_head, Memory.read_of_lt hnone] at hr
  exact h.2 c (by simp) hr

/-- Of two canonical memories that read alike, the first address of the second is not above that of the first. -/
theorem Memory.head_le_head {c c' : Host.Cell} {m m' : Memory} (h : Memory.wf (c :: m)) (h' : Memory.wf (c' :: m'))
    (hr : Memory.read (c :: m) c.1 = Memory.read (c' :: m') c.1) : c'.1 ≤ c.1 := by
  obtain ⟨x, hx, hle⟩ := Memory.exists_le_head h hr
  rcases List.mem_cons.1 hx with rfl | hx
  · exact hle
  · exact (Memory.head_lt h' x hx).le.trans hle

theorem Memory.eq_of_read_eq {m m' : Memory} (h : Memory.wf m) (h' : Memory.wf m')
    (hr : ∀ a, Memory.read m a = Memory.read m' a) : m = m' := by
  induction m generalizing m' with
  | nil =>
    cases m' with
    | nil => rfl
    | cons c' m' => simpa using Memory.exists_le_head h' (hr c'.1).symm
  | cons c m ih =>
    cases m' with
    | nil => simpa using Memory.exists_le_head h (hr c.1)
    | cons c' m' =>
      have haddr : c.1 = c'.1 :=
        le_antisymm (Memory.head_le_head h' h (hr c'.1).symm) (Memory.head_le_head h h' (hr c.1))
      have hbyte : c.2 = c'.2 := by
        have hhead := hr c.1
        rwa [Memory.read_head, haddr, Memory.read_head] at hhead
      have htail : m = m' := ih (Memory.wf_tail h) (Memory.wf_tail h') fun a => by
        rw [Memory.read_tail h, Memory.read_tail h', haddr, hr]
      rw [Prod.ext haddr hbyte, htail]

/-- Settles O13, by induction on the two lists of cells: the first cells agree, and so do the tails. -/
theorem canonicalMemoriesThatReadAlikeAreEqual : Obligations.CanonicalMemoriesThatReadAlikeAreEqual :=
  fun _ _ => Memory.eq_of_read_eq

/-! ### Phases (R21) -/

/-- Settles O3: `step_waits`, by the three phases in which the block waits. -/
theorem waitingAnswersTheSameState : Obligations.WaitingAnswersTheSameState :=
  fun _ => step_waits

/-- The busy phases are those that do not accept START. -/
theorem State.acceptsStart_eq_false {s : State} (hp : s.phase = .header ∨ s.phase = .decode) :
    s.acceptsStart = false := by
  unfold State.acceptsStart
  rcases hp with hp | hp <;> rw [hp]

/-- Settles O7: START is taken first, and a busy phase does not accept it. -/
theorem startWhileBusyIsRefused : Obligations.StartWhileBusyIsRefused := by
  intro s bytes hc hp
  rw [step_start hc, State.acceptsStart_eq_false hp]
  rfl

/-- A step of a decode that runs, no command waiting, leaves it running past its header or ended. -/
theorem step_busy_phase {s t : State} (hn : s.hostCmd = none) (hp : s.phase = .header ∨ s.phase = .decode)
    (h : step s = .next t) : t.phase = .decode ∨ t.phase = .done ∨ t.phase = .error := by
  rcases step_next_cases hn h with ⟨hw, rfl⟩ | ⟨-, -, rfl⟩ | ⟨-, -, m, w, ht, ch, cs, f, v, -, rfl⟩ |
    ⟨-, -, m, w, ht, ch, cs, -, -, rfl⟩ | ⟨-, -, rfl⟩ | ⟨-, b0, -, -, rfl⟩ | ⟨hd, b0, i, -, -, -, -, -, -, rfl⟩
  · rcases hp with hp | hp <;> simp [hp] at hw
  · exact .inr (.inr rfl)
  · exact .inr (.inr rfl)
  · rw [State.openStream_phase]
    split <;> simp
  · exact .inr (.inr rfl)
  · exact .inr (.inr rfl)
  · rw [State.completeChunk_phase, hd]
    split <;> simp

/-- A START that is not refused was issued in a waiting phase. -/
theorem waits_of_step_start {s t : State} {bytes : List Byte} (hc : s.hostCmd = some (.start bytes))
    (h : step s = .next t) : s.phase = .idle ∨ s.phase = .done ∨ s.phase = .error := by
  rw [← State.acceptsStart_iff]
  by_contra hbusy
  rw [step_start hc, if_neg hbusy] at h
  cases h

theorem Phase.code_toNat_le (p : Phase) : p.code.toNat ≤ 4 := by
  cases p <;> decide

/-- Settles O2: the codes by evaluation, and each phase's step by the command that waits, or by what the block does. -/
theorem phaseCodesAndTransitions : Obligations.PhaseCodesAndTransitions := by
  refine ⟨⟨rfl, rfl, rfl, rfl, rfl, Phase.code_toNat_le⟩, fun s t h => ⟨fun hn hp => ?waits,
    fun hn hp => step_busy_phase hn (.inl hp) h, fun hn hp => step_busy_phase hn (.inr hp) h,
    fun bytes hc => ⟨waits_of_step_start hc h, ?start⟩, fun hc => ?reset⟩⟩
  case waits =>
    rw [step_waits hn hp] at h
    cases h
    rfl
  case start => rw [step_start_next hc h, State.start_phase]
  case reset => rw [step_reset_next hc h, State.hostReset_phase]

/-! ### Which step writes which registers (R23, R29) -/

/-- Settles O30: outside the header step the block waits, raises or completes a chunk, and none of these writes them. -/
theorem onlyTheHeaderStepWritesTheHeaderRegisters : Obligations.OnlyTheHeaderStepWritesTheHeaderRegisters := by
  intro s t hn hp h
  rcases step_next_cases hn h with ⟨-, rfl⟩ | ⟨hh, -⟩ | ⟨hh, -⟩ | ⟨hh, -⟩ | ⟨-, -, rfl⟩ | ⟨-, b0, -, -, rfl⟩ |
    ⟨-, b0, i, -, -, -, -, -, -, rfl⟩
  · exact ⟨rfl, rfl, rfl, rfl, rfl, rfl⟩
  · exact absurd hh hp
  · exact absurd hh hp
  · exact absurd hh hp
  · exact ⟨rfl, rfl, rfl, rfl, rfl, rfl⟩
  · exact ⟨rfl, rfl, rfl, rfl, rfl, rfl⟩
  · simp

/-- A step without a command enters ERROR or leaves the error registers. -/
theorem step_enters_error_or_keeps_registers {s t : State} (hn : s.hostCmd = none) (h : step s = .next t) :
    (s.phase ≠ .error ∧ t.phase = .error) ∨
    (t.errCode = s.errCode ∧ t.errField = s.errField ∧ t.errValue = s.errValue) := by
  rcases step_next_cases hn h with ⟨-, rfl⟩ | ⟨hp, -, rfl⟩ | ⟨hp, -, m, w, ht, ch, cs, f, v, -, rfl⟩ |
    ⟨-, -, m, w, ht, ch, cs, -, -, rfl⟩ | ⟨hp, -, rfl⟩ | ⟨hp, b0, -, -, rfl⟩ | ⟨-, b0, i, -, -, -, -, -, -, rfl⟩
  · exact .inr ⟨rfl, rfl, rfl⟩
  · exact .inl ⟨by simp [hp], rfl⟩
  · exact .inl ⟨by simp [hp], rfl⟩
  · exact .inr ⟨rfl, rfl, rfl⟩
  · exact .inl ⟨by simp [hp], rfl⟩
  · exact .inl ⟨by simp [hp], rfl⟩
  · exact .inr (by simp)

/-- Settles O50: a step that does not enter ERROR leaves the error registers. -/
theorem onlyErrorEntryWritesTheErrorRegisters : Obligations.OnlyErrorEntryWritesTheErrorRegisters := by
  intro s t hn h hp
  refine (step_enters_error_or_keeps_registers hn h).resolve_left fun ⟨hs, ht⟩ => ?_
  exact hp.elim hs fun hne => hne ht

/-! ### A step runs what its bytes decode to (R101, R120) -/

/-- The bytes from the cursor on are those of a chunk that lies within `IN`, and the rest. -/
theorem State.remaining_eq_append {s : State} {k : Nat} (h : s.pos + k ≤ s.len) :
    ∃ more, s.remaining = Memory.readBytes s.input s.pos k ++ more := by
  refine ⟨Memory.readBytes s.input (s.pos + k) (s.len - s.pos - k), ?_⟩
  rw [State.remaining, ← Memory.readBytes_add, show k + (s.len - s.pos - k) = s.len - s.pos by omega]

/-- With bytes left, the first of them is the lead byte. -/
theorem State.remaining_eq_cons {s : State} {b0 : Byte} (hb : s.inByte s.pos = some b0) :
    ∃ tl, s.remaining = b0 :: tl := by
  obtain ⟨hlt, hread⟩ := State.inByte_eq_some.1 hb
  obtain ⟨tl, htl⟩ := State.remaining_eq_append (k := 1) (Nat.succ_le_of_lt hlt)
  exact ⟨tl, by rw [htl, ← hread]; rfl⟩

theorem step_runs_decoded_chunk {s : State} {i : Instr} {rest : List Byte} (hs : s.AtChunk) (hp : s.pos < s.len)
    (hd : decodeChunk s.remaining = .ok (i, rest)) : step s = exec i s := by
  rcases step_chunk_cases hs with ⟨he, -⟩ | ⟨hlt, -⟩ | ⟨b0, hb, hl, -⟩ | ⟨b0, j, -, hl, -, -, -, hj, -, hdj⟩
  · omega
  · omega
  · obtain ⟨tl, htl⟩ := State.remaining_eq_cons hb
    have hlen : s.remaining.length = s.len - s.pos := Memory.readBytes_length _ _ _
    rw [htl] at hd hlen
    rw [decodeChunk_truncated (by omega)] at hd
    cases hd
  · obtain ⟨more, hmore⟩ := State.remaining_eq_append hl
    rw [hmore, hdj] at hd
    cases hd
    exact hj

theorem step_runs_decoded_header {s : State} {i : Instr} {rest : List Byte} (hs : s.AtHeader)
    (hd : decodeHeader (Memory.readBytes s.input 0 s.len) = .ok (i, rest)) : step s = exec i s := by
  obtain ⟨-, -, hle, -⟩ := decodeHeader_ok hd
  rw [Memory.readBytes_length] at hle
  rcases step_header_cases hs with ⟨hl, -⟩ | ⟨-, m, w, h, ch, cs, hdh, hj, -⟩
  · omega
  · rw [show s.len = 14 + (s.len - 14) by omega, Memory.readBytes_add, hdh] at hd
    cases hd
    exact hj

/-- Settles O31: what fetching read is what the bytes left decode to, at both places. -/
theorem stepRunsTheDecodedInstruction : Obligations.StepRunsTheDecodedInstruction :=
  ⟨fun _ _ _ => step_runs_decoded_chunk, fun _ _ _ => step_runs_decoded_header⟩

/-! ### The machine's invariant (R34) -/

/-- Settles O54: the state after reset is fresh, and its input is empty. -/
theorem invariantHoldsAtReset : Obligations.InvariantHoldsAtReset := State.reset_inv

/-- Settles O55: a command leaves a fresh state, and of the block's own steps each next state keeps the invariant
(`State.Inv.step_next`). -/
theorem everyStepKeepsTheInvariant : Obligations.EveryStepKeepsTheInvariant :=
  fun _ _ => State.Inv.step_next

/-- Settles O14: the invariant bounds the cursor by `L` and the counters by the output's capacity. -/
theorem cursorAndCounterFitTheirWidths : Obligations.CursorAndCounterFitTheirWidths := by
  intro s inCapacity posBits countBits h hlen hpos hcount
  have hn : s.n < 2 ^ countBits := h.totalFits.trans_lt hcount
  exact ⟨(h.posLe.trans hlen).trans_lt hpos, h.countLe.trans_lt hn, hn⟩

/-! ### How a step can stop (R63, R232) -/

/-- A step that takes a command answers a state, or is START refused in a busy phase. -/
theorem step_cmd_answers {s : State} {c : HostCmd} (hc : s.hostCmd = some c) :
    (∃ t, step s = .next t) ∨ ((s.phase = .header ∨ s.phase = .decode) ∧ step s = .refused .startWhileBusy) := by
  cases c with
  | reset => exact .inl ⟨_, step_reset hc⟩
  | start bytes =>
    cases hp : s.phase with
    | idle => exact .inl ⟨_, step_start_accepted hc (.inl hp)⟩
    | done => exact .inl ⟨_, step_start_accepted hc (.inr (.inl hp))⟩
    | error => exact .inl ⟨_, step_start_accepted hc (.inr (.inr hp))⟩
    | header => exact .inr ⟨.inl rfl, startWhileBusyIsRefused s bytes hc (.inl hp)⟩
    | decode => exact .inr ⟨.inr rfl, startWhileBusyIsRefused s bytes hc (.inr hp)⟩

/-- With the cursor within the input, a step without a command answers a state, or is a header step refused for its
total. -/
theorem step_no_cmd_answers {s : State} (hn : s.hostCmd = none) (hpos : s.pos ≤ s.len) :
    (∃ t, step s = .next t) ∨ (s.phase = .header ∧ step s = .refused .outCapacityExceeded) := by
  cases hp : s.phase with
  | idle => exact .inl ⟨s, step_waits hn (.inl hp)⟩
  | done => exact .inl ⟨s, step_waits hn (.inr (.inl hp))⟩
  | error => exact .inl ⟨s, step_waits hn (.inr (.inr hp))⟩
  | header =>
    rcases step_header_ends_or_opens ⟨hp, hn⟩ with ⟨t, ht, -⟩ | hrefused
    · exact .inl ⟨t, ht⟩
    · exact .inr ⟨rfl, hrefused⟩
  | decode =>
    obtain ⟨t, ht, -⟩ := step_chunk_ends_or_advances ⟨hp, hn⟩ hpos
    exact .inl ⟨t, ht⟩

/-- Everything a step from a state of the invariant can answer: a state, or one of the two refusals. -/
theorem State.Inv.step_answers {s : State} (h : s.Inv) :
    (∃ t, step s = .next t) ∨
    (s.phase = .header ∧ s.hostCmd = none ∧ step s = .refused .outCapacityExceeded) ∨
    ((s.phase = .header ∨ s.phase = .decode) ∧ s.hostCmd ≠ none ∧ step s = .refused .startWhileBusy) := by
  match hc : s.hostCmd with
  | none => exact (step_no_cmd_answers hc h.posLe).imp_right fun ⟨hp, e⟩ => .inl ⟨hp, rfl, e⟩
  | some c => exact (step_cmd_answers hc).imp_right fun ⟨hp, e⟩ => .inr ⟨hp, by simp, e⟩

/-- Settles O57: the invariant keeps the cursor within the input, so no fetch stops, and a refusal is one of two. -/
theorem noFaultAndOnlyTheNamedRefusals : Obligations.NoFaultAndOnlyTheNamedRefusals := by
  intro s h
  rcases h.step_answers with ⟨t, e⟩ | ⟨hp, hn, e⟩ | ⟨hp, hc, e⟩ <;> rw [e]
  · exact ⟨nofun, nofun⟩
  · refine ⟨nofun, fun r hr => .inl ⟨?_, hp, hn⟩⟩
    cases hr
    rfl
  · refine ⟨nofun, fun r hr => .inr ⟨?_, hp, hc⟩⟩
    cases hr
    rfl

end Sys2Proof.Machine
end
